-- ==== Sys2Proof/Word.lean ====
section
/-! DEFINITION. The word: the one width of every register, memory cell and instruction field (R3, R4). -/

namespace Sys2Proof

/-- A word is a 32-bit unsigned integer (R4). `+` and `-` on it are the spec's `+32` and `-32`. -/
abbrev Word := BitVec 32

end Sys2Proof
end

