-- ==== Sys2Proof/Syntax.lean ====
section
/-! DEFINITION. The names of the architecture and its instructions: registers, flags, operand kinds, operands, arguments and the
eleven instructions of spec/opcode_table.json. -/

namespace Sys2Proof

/-- The thirteen registers, in the order of the source's list (R10). -/
inductive Reg where
  | pc | ar | st | sb | ft | fb | ds | de | ct | cb | x0 | x1 | x2
  deriving DecidableEq, Repr

/-- The four flags S, ZF, PF, SF (R15). -/
inductive Flag where
  | s | zf | pf | sf
  deriving DecidableEq, Repr

/-- The five operand kinds (R55). -/
inductive Kind where
  | register | integer | value | address | symbol
  deriving DecidableEq, Repr

/-- A legal operand: a kind and what its value word holds (R57). -/
inductive Operand where
  /-- REGISTER: a register. -/
  | register (r : Reg)
  /-- INTEGER: the literal. -/
  | integer (n : Word)
  /-- VALUE: the symbol index whose Data word is meant. -/
  | value (i : Word)
  /-- ADDRESS: the Data offset itself, already resolved. -/
  | address (d : Word)
  /-- SYMBOL: the symbol index whose location is meant. -/
  | symbol (i : Word)
  deriving DecidableEq, Repr

/-- One argument of an instruction as its two Code words give it. `illegal` keeps the words of an argument that fails R85 (the
kind word is not one of the five) or R87 (a REGISTER ordinal of 13 or more): decoding goes by the opcode word alone (R83), and
the static checks of the argument words come after it. -/
inductive Arg where
  | operand (o : Operand)
  | illegal (kind value : Word)
  deriving DecidableEq, Repr

/-- The eleven rows of the opcode map (R54). -/
inductive Opcode where
  | none | halt | jmp | mov | cmp | push | pop | add | sub | call | assert
  deriving DecidableEq, Repr

/-- The instructions: one constructor per row of spec/opcode_table.json, with the row's arguments (R51), slot 0 first. -/
inductive Instr where
  | none
  | halt
  | jmp (target : Arg)
  | mov (dst src : Arg)
  | cmp (a b : Arg)
  | push (src : Arg)
  | pop (dst : Arg)
  | add (dst src : Arg)
  | sub (dst src : Arg)
  | call (target : Arg)
  | assert (a b : Arg)
  deriving DecidableEq, Repr

end Sys2Proof
end

