-- ==== Sys2Proof/WellFormed.lean ====
section
/-! DEFINITION. Which instruction terms pass the engine's static checks (R85 to R87): the argument is legal and its kind lies in
the slot's mask. An ill-formed term still decodes and runs: it takes the IllegalOperand fault. -/

namespace Sys2Proof

/-- Mask ALL (0x1F): any of the five kinds, with a register that exists. -/
def Arg.isLegal : Arg → Bool
  | .operand _ => true
  | .illegal _ _ => false

/-- Mask REGISTER (0x01). -/
def Arg.isRegister : Arg → Bool
  | .operand (.register _) => true
  | _ => false

/-- Mask SYMBOL (0x10). -/
def Arg.isSymbol : Arg → Bool
  | .operand (.symbol _) => true
  | _ => false

/-- The engine's slot masks (R86) with the legality of kind words and ordinals (R85, R87). -/
def Instr.wf : Instr → Bool
  | .none => true
  | .halt => true
  | .jmp target => target.isSymbol
  | .mov dst src => dst.isRegister && src.isLegal
  | .cmp a b => a.isLegal && b.isLegal
  | .push src => src.isLegal
  | .pop dst => dst.isRegister
  | .add dst src => dst.isRegister && src.isLegal
  | .sub dst src => dst.isRegister && src.isLegal
  | .call target => target.isSymbol
  | .assert a b => a.isRegister && b.isLegal

end Sys2Proof
end

