-- ==== Sys2Proof/Decode.lean ====
section
/-! DEFINITION. The numbering tables (R10, R54, R55), the decoder, total on any words, and after it the encoder. -/

namespace Sys2Proof

/-! ## The numbering tables -/

/-- The register ordinals (R10). -/
def Reg.ordinal : Reg → Word
  | .pc => 0 | .ar => 1 | .st => 2 | .sb => 3 | .ft => 4 | .fb => 5 | .ds => 6
  | .de => 7 | .ct => 8 | .cb => 9 | .x0 => 10 | .x1 => 11 | .x2 => 12

/-- Every register, in the order of R10. -/
def Reg.all : List Reg := [.pc, .ar, .st, .sb, .ft, .fb, .ds, .de, .ct, .cb, .x0, .x1, .x2]

/-- The register of an ordinal; ordinals 13 and above name no register (R10). -/
def Reg.ofOrdinal (v : Word) : Option Reg := Reg.all.find? fun r => r.ordinal == v

/-- The operand-kind flags (R55). -/
def Kind.word : Kind → Word
  | .register => 0x01 | .integer => 0x02 | .value => 0x04 | .address => 0x08 | .symbol => 0x10

/-- Every operand kind, in the order of R55. -/
def Kind.all : List Kind := [.register, .integer, .value, .address, .symbol]

/-- The kind of a kind word, compared as a whole word (R52); none for a word that is not the flag of exactly one kind (R59). -/
def Kind.ofWord (k : Word) : Option Kind := Kind.all.find? fun q => q.word == k

/-- The opcode numbers (R54). -/
def Opcode.number : Opcode → Word
  | .none => 0 | .halt => 1 | .jmp => 2 | .mov => 3 | .cmp => 4 | .push => 5 | .pop => 6
  | .add => 7 | .sub => 8 | .call => 9 | .assert => 10

/-- Every row of the opcode map, in the order of R54. -/
def Opcode.all : List Opcode := [.none, .halt, .jmp, .mov, .cmp, .push, .pop, .add, .sub, .call, .assert]

/-- Ordinal lookup of an opcode word, compared as a whole word (R52); words 11 and above name no instruction (R58). -/
def Opcode.ofWord (w : Word) : Option Opcode := Opcode.all.find? fun op => op.number == w

/-- The argument count of each row (R51). -/
def Opcode.nargs : Opcode → Nat
  | .none => 0 | .halt => 0 | .jmp => 1 | .mov => 2 | .cmp => 2 | .push => 1 | .pop => 1
  | .add => 2 | .sub => 2 | .call => 1 | .assert => 2

/-- Encoded size in words: `1 + 2*nargs` (R51). -/
def Opcode.size (op : Opcode) : Nat := 1 + 2 * op.nargs

/-! ## The decoder -/

/-- The argument that a kind word and a value word give (R55, R57); `illegal` by R85 or R87. -/
def Arg.ofWords (k v : Word) : Arg :=
  match Kind.ofWord k with
  | some .register =>
    match Reg.ofOrdinal v with
    | some r => .operand (.register r)
    | none => .illegal k v
  | some .integer => .operand (.integer v)
  | some .value => .operand (.value v)
  | some .address => .operand (.address v)
  | some .symbol => .operand (.symbol v)
  | none => .illegal k v

/-- Argument `slot` of an instruction: its kind word at offset `1 + 2*slot`, then its value word at `2 + 2*slot` (R50, R84). -/
def readArg {ε : Type} (read : Nat → Except ε Word) (slot : Nat) : Except ε Arg := do
  let k ← read (1 + 2 * slot)
  let v ← read (2 + 2 * slot)
  return Arg.ofWords k v

/-- The one decoder (R53, R83, R84), over any source of words: `read j` is the word at offset `j` from the opcode word. It reads
the opcode word, looks it up, and reads exactly the `2*nargs` argument words in ascending order. -/
def decodeWith {ε : Type} (read : Nat → Except ε Word) (illegalOpcode : Word → ε) : Except ε Instr := do
  let w ← read 0
  match Opcode.ofWord w with
  | none => .error (illegalOpcode w)
  | some .none => return .none
  | some .halt => return .halt
  | some .jmp => return .jmp (← readArg read 0)
  | some .mov => return .mov (← readArg read 0) (← readArg read 1)
  | some .cmp => return .cmp (← readArg read 0) (← readArg read 1)
  | some .push => return .push (← readArg read 0)
  | some .pop => return .pop (← readArg read 0)
  | some .add => return .add (← readArg read 0) (← readArg read 1)
  | some .sub => return .sub (← readArg read 0) (← readArg read 1)
  | some .call => return .call (← readArg read 0)
  | some .assert => return .assert (← readArg read 0) (← readArg read 1)

/-- Why a list of words is no instruction: its opcode word is 11 or above (R58), or it ends before the word at that offset. -/
inductive DecodeError where
  | illegalOpcode (w : Word)
  | truncated (offset : Nat)
  deriving DecidableEq, Repr

/-- The word at an offset of a list, or the reason there is none. -/
def wordAt (ws : List Word) (j : Nat) : Except DecodeError Word :=
  match ws[j]? with
  | some w => .ok w
  | none => .error (.truncated j)

/-- Decoding of a list of words, total: the instruction at its head, or the named reason there is none. -/
def decode (ws : List Word) : Except DecodeError Instr := decodeWith (wordAt ws) .illegalOpcode

/-! ## The encoder -/

/-- The kind of a legal operand. -/
def Operand.kind : Operand → Kind
  | .register _ => .register
  | .integer _ => .integer
  | .value _ => .value
  | .address _ => .address
  | .symbol _ => .symbol

/-- The value word of a legal operand (R57). -/
def Operand.valueWord : Operand → Word
  | .register r => r.ordinal
  | .integer n => n
  | .value i => i
  | .address d => d
  | .symbol i => i

/-- The kind word of a legal operand (R55). -/
def Operand.kindWord (o : Operand) : Word := o.kind.word

/-- The two Code words of an argument (R50). -/
def Arg.words : Arg → List Word
  | .operand o => [o.kindWord, o.valueWord]
  | .illegal k v => [k, v]

/-- The row of the opcode map an instruction belongs to. -/
def Instr.opcode : Instr → Opcode
  | .none => .none
  | .halt => .halt
  | .jmp _ => .jmp
  | .mov _ _ => .mov
  | .cmp _ _ => .cmp
  | .push _ => .push
  | .pop _ => .pop
  | .add _ _ => .add
  | .sub _ _ => .sub
  | .call _ => .call
  | .assert _ _ => .assert

/-- The arguments of an instruction, slot 0 first. -/
def Instr.args : Instr → List Arg
  | .none => []
  | .halt => []
  | .jmp target => [target]
  | .mov dst src => [dst, src]
  | .cmp a b => [a, b]
  | .push src => [src]
  | .pop dst => [dst]
  | .add dst src => [dst, src]
  | .sub dst src => [dst, src]
  | .call target => [target]
  | .assert a b => [a, b]

/-- Encoded size in words (R51). -/
def Instr.size (i : Instr) : Nat := i.opcode.size

/-- The Code words of an instruction: formats F0, F1 and F2 (R50). -/
def encode (i : Instr) : List Word := i.opcode.number :: i.args.flatMap Arg.words

/-! ## The host's view of one instruction word -/

/-- The five words (the longest instruction) whose bits, first word lowest, are the low `nbits` bits of `w`, and 0 above. -/
def tableWords (nbits w : Nat) : List Word :=
  [0, 1, 2, 3, 4].map fun j => BitVec.ofNat 32 ((w % 2 ^ nbits) >>> (32 * j))

/-- The instruction the decoder reads from the bits of a row of spec/opcode_table.json. -/
def decodeTableWord (nbits w : Nat) : Option Instr := (decode (tableWords nbits w)).toOption

end Sys2Proof
end

