-- ==== Sys2Proof/Config.lean ====
section
/-! DEFINITION. The implementation parameters of R3: what one instance of the hardware fixes. There is no free value in this
model: the spec states every result. -/

namespace Sys2Proof

/-- The three segment capacities, in words (R3). `NSYM` is the length of the loaded symbol table (D5). -/
structure Config where
  stackWords : Nat
  dataWords  : Nat
  codeWords  : Nat
  deriving DecidableEq, Repr

/-- The default capacities of R3: Stack 256, Data 1024, Code 4096 words. -/
def Config.default : Config := { stackWords := 256, dataWords := 1024, codeWords := 4096 }

/-- R3: every capacity satisfies `1 <= capacity <= 2^31`, so that no address computation of the spec wraps (D26). -/
abbrev Config.wf (c : Config) : Prop :=
  (1 ≤ c.stackWords ∧ c.stackWords ≤ 2 ^ 31) ∧ (1 ≤ c.dataWords ∧ c.dataWords ≤ 2 ^ 31) ∧
    (1 ≤ c.codeWords ∧ c.codeWords ≤ 2 ^ 31)

end Sys2Proof
end

