-- ==== Sys2Proof/Machine/State.lean ====
section
/-! DEFINITION. The architectural state (10_state.md, 20_memory.md): plain data, holding everything the spec gives the machine. -/

namespace Sys2Proof.Machine

/-- The thirteen registers (R10): no bank, no second name of one, no hardwired register. -/
structure RegFile where
  pc : Word
  ar : Word
  st : Word
  sb : Word
  ft : Word
  fb : Word
  ds : Word
  de : Word
  ct : Word
  cb : Word
  x0 : Word
  x1 : Word
  x2 : Word
  deriving DecidableEq, Repr

/-- The four flags, each a single bit (R15). -/
structure Flags where
  s  : BitVec 1
  zf : BitVec 1
  pf : BitVec 1
  sf : BitVec 1
  deriving DecidableEq, Repr

/-- The run state (R16). -/
inductive RunState where
  | running | halted | faulted
  deriving DecidableEq, Repr

/-- The fault record the host reads (R17): `atAddr` is the spec's field `at`. -/
structure FaultRecord where
  cause  : BitVec 3
  atAddr : Word
  info0  : Word
  info1  : Word
  info2  : Word
  info3  : Word
  info4  : Word
  deriving DecidableEq, Repr

/-- No fault recorded: every field 0 (R17, R23). -/
def FaultRecord.empty : FaultRecord :=
  { cause := 0, atAddr := 0, info0 := 0, info1 := 0, info2 := 0, info3 := 0, info4 := 0 }

/-- The three memory segments, in the source's order (R30, R131). -/
inductive Segment where
  | stack | data | code
  deriving DecidableEq, Repr

/-- The kind of a symbol (R21). -/
inductive SymbolKind where
  | label | byte | short | integer | double | string
  deriving DecidableEq, Repr

/-- An entry of the symbol table as the engine sees it (R21). -/
structure SymbolEntry where
  kind     : SymbolKind
  resolved : Bool
  location : Word
  deriving DecidableEq, Repr

/-- The content of a segment: its words that differ from `Mem.blank`, by word address, addresses rising. The cell is a whole
32-bit word, the smallest unit the spec addresses (R34: the architecture has no byte order; log entry 2). -/
abbrev Mem := List (Nat × Word)

/-- What an unlisted word reads as: 0 (Code R39 and R153, Data R153, Stack R23). -/
def Mem.blank : Word := 0

/-- The canonical form of a segment's content: addresses strictly rising, no listed word equal to `Mem.blank`. -/
abbrev Mem.wf (m : Mem) : Prop := m.Pairwise (fun c d => c.1 < d.1) ∧ ∀ c ∈ m, c.2 ≠ Mem.blank

/-- Every listed word lies below the capacity. -/
abbrev Mem.within (capacity : Nat) (m : Mem) : Prop := ∀ c ∈ m, c.1 < capacity

/-- The machine's state. `cfg`, `code`, `data` and `symtab` are fixed during a run (R8). -/
structure State where
  /-- The segment capacities (R3). -/
  cfg    : Config
  /-- The registers (R10). -/
  regs   : RegFile
  /-- The flags (R15). -/
  flags  : Flags
  /-- The run state (R16). -/
  run    : RunState
  /-- The fault record (R17). -/
  fault  : FaultRecord
  /-- The Stack segment (R20). -/
  stack  : Mem
  /-- The Data segment (R30, R37). -/
  data   : Mem
  /-- The Code segment (R30, R36). -/
  code   : Mem
  /-- The symbol table (R21); its length is NSYM. -/
  symtab : List SymbolEntry
  deriving DecidableEq, Repr

/-- Why a step stops the model. It has no constructor: every fault of the spec enters the FAULTED state, which is a next state
(R135), and in HALTED and FAULTED no state changes (R80), so no step ever stops. -/
inductive Fault where
  deriving DecidableEq, Repr

/-- Why a step has no meaning. -/
inductive Refusal where
  /-- Raised by `exec` for an instruction with no meaning yet; safe. No arm of this model raises it. -/
  | notModelled (mnemonic : String)
  deriving DecidableEq, Repr

/-- Registers right after reset: all 0 (R23). -/
def RegFile.zero : RegFile :=
  { pc := 0, ar := 0, st := 0, sb := 0, ft := 0, fb := 0, ds := 0, de := 0, ct := 0, cb := 0, x0 := 0, x1 := 0, x2 := 0 }

/-- Flags right after reset: all 0 (R23). -/
def Flags.zero : Flags := { s := 0, zf := 0, pf := 0, sf := 0 }

/-- The machine right after reset (R23, R150) with nothing loaded: the default capacities, Code and Data all 0, no symbol (log
entries 3 and 4). -/
def State.reset : State :=
  { cfg := Config.default, regs := RegFile.zero, flags := Flags.zero, run := .running, fault := FaultRecord.empty,
    stack := [], data := [], code := [], symtab := [] }

end Sys2Proof.Machine
end

