-- ==== Sys2Proof/Machine/Ops.lean ====
section
/-! DEFINITION. The named operations over registers, flags, segments and the symbol table (R5, R22, R33), taking a fault (R135),
the advance of PC and AR (R92), and the fetch of an instruction from Code (R81 to R84). -/

namespace Sys2Proof.Machine

/-! ## Registers and flags -/

/-- `x[r]`, read (R5). -/
def State.reg (s : State) : Reg → Word
  | .pc => s.regs.pc
  | .ar => s.regs.ar
  | .st => s.regs.st
  | .sb => s.regs.sb
  | .ft => s.regs.ft
  | .fb => s.regs.fb
  | .ds => s.regs.ds
  | .de => s.regs.de
  | .ct => s.regs.ct
  | .cb => s.regs.cb
  | .x0 => s.regs.x0
  | .x1 => s.regs.x1
  | .x2 => s.regs.x2

/-- `x[r] <- v` (R5). Writing one register changes no other (R14). -/
def State.setReg (s : State) (r : Reg) (v : Word) : State :=
  match r with
  | .pc => { s with regs := { s.regs with pc := v } }
  | .ar => { s with regs := { s.regs with ar := v } }
  | .st => { s with regs := { s.regs with st := v } }
  | .sb => { s with regs := { s.regs with sb := v } }
  | .ft => { s with regs := { s.regs with ft := v } }
  | .fb => { s with regs := { s.regs with fb := v } }
  | .ds => { s with regs := { s.regs with ds := v } }
  | .de => { s with regs := { s.regs with de := v } }
  | .ct => { s with regs := { s.regs with ct := v } }
  | .cb => { s with regs := { s.regs with cb := v } }
  | .x0 => { s with regs := { s.regs with x0 := v } }
  | .x1 => { s with regs := { s.regs with x1 := v } }
  | .x2 => { s with regs := { s.regs with x2 := v } }

/-- The value of a flag. -/
def State.flag (s : State) : Flag → BitVec 1
  | .s => s.flags.s
  | .zf => s.flags.zf
  | .pf => s.flags.pf
  | .sf => s.flags.sf

/-- `flag.f <- b`: the flag takes `b mod 2` (R5). -/
def State.setFlag (s : State) (f : Flag) (b : Nat) : State :=
  match f with
  | .s => { s with flags := { s.flags with s := BitVec.ofNat 1 b } }
  | .zf => { s with flags := { s.flags with zf := BitVec.ofNat 1 b } }
  | .pf => { s with flags := { s.flags with pf := BitVec.ofNat 1 b } }
  | .sf => { s with flags := { s.flags with sf := BitVec.ofNat 1 b } }

/-! ## Faults -/

/-- The five faults of the engine with the data each records (R130, R131). `slot` is 0 or 1. -/
inductive EngineFault where
  | outOfBounds (seg : Segment) (addr : Word)
  | illegalOpcode (w : Word)
  | illegalOperand (slot : Fin 2) (kind value : Word)
  | unresolvedSymbol (i : Word)
  | assertionFailed (ra : Reg) (actual : Word) (b : Operand) (expected : Word)
  deriving DecidableEq, Repr

/-- The segment ids of the fault record (R131). -/
def Segment.id : Segment → Word
  | .stack => 0
  | .data => 1
  | .code => 2

/-- The fault record of a fault at the opcode word address `at_` (R130, R131). -/
def EngineFault.record (at_ : Word) : EngineFault → FaultRecord
  | .outOfBounds seg addr =>
    { FaultRecord.empty with cause := 1, atAddr := at_, info0 := seg.id, info1 := addr }
  | .illegalOpcode w => { FaultRecord.empty with cause := 2, atAddr := at_, info0 := w }
  | .illegalOperand slot k v =>
    { FaultRecord.empty with cause := 3, atAddr := at_, info0 := BitVec.ofNat 32 slot.val, info1 := k, info2 := v }
  | .unresolvedSymbol i => { FaultRecord.empty with cause := 4, atAddr := at_, info0 := i }
  | .assertionFailed ra actual b expected =>
    { cause := 5, atAddr := at_, info0 := ra.ordinal, info1 := actual, info2 := b.kindWord, info3 := b.valueWord,
      info4 := expected }

/-- Fault entry (R135): the run state becomes FAULTED and the record is latched with the AR of the start of the step; nothing
else changes (R136). There is no return from it (R137). -/
def State.takeFault (s : State) (f : EngineFault) : State :=
  { s with run := .faulted, fault := f.record (s.reg .ar) }

/-- The end of an instruction begun in `s`: its completed state, or the fault taken in `s` itself, so that a faulting step writes
nothing else (R136). -/
def complete (s : State) (r : Except EngineFault State) : Host.Outcome State Fault Refusal :=
  match r with
  | .ok t => .next t
  | .error f => .next (s.takeFault f)

/-! ## Memory -/

/-- The word at an address of a segment's content. -/
def Mem.read : Mem → Nat → Word
  | [], _ => Mem.blank
  | (b, w) :: m, a => if a = b then w else Mem.read m a

/-- A listing of `v` at `a` before the rest `m`, left out where `v` is what an unlisted word reads as. -/
def Mem.cell (a : Nat) (v : Word) (m : Mem) : Mem := if v = Mem.blank then m else (a, v) :: m

/-- The content after a write of `v` at `a`, in the canonical form. -/
def Mem.write : Mem → Nat → Word → Mem
  | [], a, v => Mem.cell a v []
  | (b, w) :: m, a, v =>
    if a < b then Mem.cell a v ((b, w) :: m)
    else if a = b then Mem.cell a v m
    else (b, w) :: Mem.write m a v

/-- The content of a segment. -/
def State.segment (s : State) : Segment → Mem
  | .stack => s.stack
  | .data => s.data
  | .code => s.code

/-- The state with another content of one segment. -/
def State.setSegment (s : State) (seg : Segment) (m : Mem) : State :=
  match seg with
  | .stack => { s with stack := m }
  | .data => { s with data := m }
  | .code => { s with code := m }

/-- The capacity of a segment (R3, R30). -/
def State.capacity (s : State) : Segment → Nat
  | .stack => s.cfg.stackWords
  | .data => s.cfg.dataWords
  | .code => s.cfg.codeWords

/-- `MemRead(SEG, addr, 1)`: out of bounds at or above the capacity, by the unsigned comparison of R33. -/
def memRead (seg : Segment) (addr : Word) (s : State) : Except EngineFault Word :=
  if s.capacity seg ≤ addr.toNat then .error (.outOfBounds seg addr)
  else .ok (Mem.read (s.segment seg) addr.toNat)

/-- `MemWrite(SEG, addr, 1, v)`, with the same bounds rule (R5, R33). The engine writes the Stack only (R20). -/
def memWrite (seg : Segment) (addr v : Word) (s : State) : Except EngineFault State :=
  if s.capacity seg ≤ addr.toNat then .error (.outOfBounds seg addr)
  else .ok (s.setSegment seg (Mem.write (s.segment seg) addr.toNat v))

/-- `SymLoc(i)` (R22): the entry's location, whatever its kind; no entry or an unresolved one is UnresolvedSymbol. -/
def symLoc (i : Word) (s : State) : Except EngineFault Word :=
  match s.symtab[i.toNat]? with
  | none => .error (.unresolvedSymbol i)
  | some e => if e.resolved then .ok e.location else .error (.unresolvedSymbol i)

/-! ## Advance, transfer, fetch -/

/-- The default advance by the size of a row (R92): PC and AR each by its own addition, from its own current value. -/
def State.advance (s : State) (op : Opcode) : State :=
  let s := s.setReg .pc (s.reg .pc + BitVec.ofNat 32 op.size)
  s.setReg .ar (s.reg .ar + BitVec.ofNat 32 op.size)

/-- An explicit control transfer (R105, R120): PC and AR both become the target. -/
def State.transfer (s : State) (target : Word) : State := (s.setReg .pc target).setReg .ar target

/-- Fetch and decode at AR (R81 to R84): the opcode word, the ordinal lookup, then the argument words in ascending order. -/
def fetch (s : State) : Except EngineFault Instr :=
  decodeWith (fun j => memRead .code (s.reg .ar + BitVec.ofNat 32 j) s) .illegalOpcode

/-- Consecutive words stored in a segment's content from an address on. -/
def Mem.writeWords (m : Mem) (a : Nat) : List Word → Mem
  | [] => m
  | w :: ws => Mem.writeWords (Mem.write m a w) (a + 1) ws

end Sys2Proof.Machine
end

