-- ==== Sys2Proof/Machine/Operands.lean ====
section
/-! DEFINITION. The static checks of an argument's words (R85, R86, R87) and the shared resolver (R88). -/

namespace Sys2Proof.Machine

/-- The IllegalOperand fault of an argument (R85 to R87): its slot, kind word and value word (R131). -/
def illegalArg (slot : Fin 2) : Arg → EngineFault
  | .operand o => .illegalOperand slot o.kindWord o.valueWord
  | .illegal k v => .illegalOperand slot k v

/-- A slot of mask ALL (0x1F): any legal operand (R86). -/
def anySlot (slot : Fin 2) (a : Arg) : Except EngineFault Operand :=
  match a with
  | .operand o => .ok o
  | .illegal _ _ => .error (illegalArg slot a)

/-- A slot of mask REGISTER (0x01): the register named (R86). -/
def registerSlot (slot : Fin 2) (a : Arg) : Except EngineFault Reg :=
  match a with
  | .operand (.register r) => .ok r
  | _ => .error (illegalArg slot a)

/-- A slot of mask SYMBOL (0x10): the symbol index (R86). -/
def symbolSlot (slot : Fin 2) (a : Arg) : Except EngineFault Word :=
  match a with
  | .operand (.symbol i) => .ok i
  | _ => .error (illegalArg slot a)

/-- `Resolve(k, v)`: the effective value of a legal operand (R88). It writes nothing. -/
def resolve (o : Operand) (s : State) : Except EngineFault Word :=
  match o with
  | .register r => .ok (s.reg r)
  | .integer n => .ok n
  | .address d => .ok d
  | .value i => do memRead .data (← symLoc i s) s
  | .symbol i => symLoc i s

end Sys2Proof.Machine
end

