-- ==== Sys2Proof/Machine/Arith.lean ====
section
/-! DEFINITION. MOV, ADD and SUB (43_mov_add_sub.md): a register destination, a source of any kind, arithmetic modulo 2^32. -/

namespace Sys2Proof.Machine

/-- MOV (R110): the destination's old value is not read. -/
def execMov (dst src : Arg) (s : State) : Host.Outcome State Fault Refusal :=
  complete s do
    let d ← registerSlot 0 dst
    let o ← anySlot 1 src
    let v ← resolve o s
    return (s.setReg d v).advance .mov

/-- ADD (R111): both reads precede the write. -/
def execAdd (dst src : Arg) (s : State) : Host.Outcome State Fault Refusal :=
  complete s do
    let d ← registerSlot 0 dst
    let o ← anySlot 1 src
    let v ← resolve o s
    return (s.setReg d (s.reg d + v)).advance .add

/-- SUB (R112): both reads precede the write. -/
def execSub (dst src : Arg) (s : State) : Host.Outcome State Fault Refusal :=
  complete s do
    let d ← registerSlot 0 dst
    let o ← anySlot 1 src
    let v ← resolve o s
    return (s.setReg d (s.reg d - v)).advance .sub

end Sys2Proof.Machine
end

