-- ==== Sys2Proof/Machine/Flags.lean ====
section
/-! DEFINITION. The flag computations: CMP is the only instruction that writes a flag (R15, R126). -/

namespace Sys2Proof.Machine

/-- `popcount(v)`: the number of one bits (R4). -/
def popcount {w : Nat} (v : BitVec w) : Nat := ((List.range w).filter fun j => v.getLsbD j).length

/-- 1 where a condition holds, else 0. -/
def bit (b : Bool) : Nat := if b then 1 else 0

/-- The flags after a comparison with difference `d` (R126): ZF on zero, SF bit 31, PF even parity of the low byte; S is kept. -/
def State.compareFlags (s : State) (d : Word) : State :=
  let s := s.setFlag .zf (bit (d == 0))
  let s := s.setFlag .sf (bit (d.getLsbD 31))
  s.setFlag .pf (bit (popcount (d.extractLsb 7 0) % 2 == 0))

end Sys2Proof.Machine
end

