-- ==== Sys2Proof/Machine/Compare.lean ====
section
/-! DEFINITION. ASSERT and CMP (46_assert_cmp.md). -/

namespace Sys2Proof.Machine

/-- ASSERT (R125): AssertionFailed when the register and the resolved operand differ as words. -/
def execAssert (a b : Arg) (s : State) : Host.Outcome State Fault Refusal :=
  complete s do
    let ra ← registerSlot 0 a
    let o ← anySlot 1 b
    let bv ← resolve o s
    if s.reg ra = bv then return s.advance .assert
    else .error (.assertionFailed ra (s.reg ra) o bv)

/-- CMP (R126): any kind in both slots; ZF, SF and PF from the wrapped difference. -/
def execCmp (a b : Arg) (s : State) : Host.Outcome State Fault Refusal :=
  complete s do
    let oa ← anySlot 0 a
    let ob ← anySlot 1 b
    let av ← resolve oa s
    let bv ← resolve ob s
    return (s.compareFlags (av - bv)).advance .cmp

end Sys2Proof.Machine
end

