-- ==== Sys2Proof/Machine/Control.lean ====
section
/-! DEFINITION. NONE, HALT, JMP and CALL (41_halt_none.md, 42_jmp.md, 45_call.md). -/

namespace Sys2Proof.Machine

/-- NONE (R100): the run halts, then the default advance. -/
def execNone (s : State) : Host.Outcome State Fault Refusal :=
  complete s (.ok (State.advance { s with run := .halted } .none))

/-- HALT (R101): the run halts, then the default advance. -/
def execHalt (s : State) : Host.Outcome State Fault Refusal :=
  complete s (.ok (State.advance { s with run := .halted } .halt))

/-- JMP (R105): the symbol's location becomes PC and AR; the target is not checked. -/
def execJmp (target : Arg) (s : State) : Host.Outcome State Fault Refusal :=
  complete s do
    let i ← symbolSlot 0 target
    let t ← symLoc i s
    return s.transfer t

/-- CALL (R120): the target is resolved, PC + 3 is pushed, and PC and AR become the target. -/
def execCall (target : Arg) (s : State) : Host.Outcome State Fault Refusal :=
  complete s do
    let i ← symbolSlot 0 target
    let t ← symLoc i s
    let sp := s.reg .st
    let s' ← memWrite .stack sp (s.reg .pc + BitVec.ofNat 32 (Opcode.size .call)) s
    return (s'.setReg .st (sp + 1)).transfer t

end Sys2Proof.Machine
end

