-- ==== Sys2Proof/Machine/Stack.lean ====
section
/-! DEFINITION. PUSH and POP (44_push_pop.md): the stack grows upward and ST is the next free slot (R19). -/

namespace Sys2Proof.Machine

/-- PUSH (R115): the value at the old ST, then ST + 1. -/
def execPush (src : Arg) (s : State) : Host.Outcome State Fault Refusal :=
  complete s do
    let o ← anySlot 0 src
    let v ← resolve o s
    let t := s.reg .st
    let s' ← memWrite .stack t v s
    return (s'.setReg .st (t + 1)).advance .push

/-- POP (R116): the slot below ST is read and zeroed, ST moves down, and the destination is written last. -/
def execPop (dst : Arg) (s : State) : Host.Outcome State Fault Refusal :=
  complete s do
    let d ← registerSlot 0 dst
    let t := s.reg .st - 1
    let v ← memRead .stack t s
    let s' ← memWrite .stack t 0 s
    return ((s'.setReg .st t).setReg d v).advance .pop

end Sys2Proof.Machine
end

