-- ==== Sys2Proof/Machine/Step.lean ====
section
/-! DEFINITION. The step (R80, R94) and the host's placement of one instruction where the next step fetches. -/

namespace Sys2Proof.Machine

/-- One step (R80): while RUNNING, fetch and decode at AR, then execute; a fetch or decode fault is taken like any other. In
HALTED and FAULTED no state changes. -/
def step (s : State) : Host.Outcome State Fault Refusal :=
  match s.run with
  | .running =>
    match fetch s with
    | .ok i => exec i s
    | .error f => .next (s.takeFault f)
  | .halted => .next s
  | .faulted => .next s

/-- The state with the instruction of these bits at AR, its missing words 0, and RUNNING, which the fetch needs. Code is loaded
from outside the machine (R153, log entry 5). -/
def State.withFetchWord (s : State) (nbits w : Nat) : State :=
  { s with run := .running, code := Mem.writeWords s.code (s.reg .ar).toNat (tableWords nbits w) }

end Sys2Proof.Machine
end

