-- ==== Sys2Proof/Machine/HostPort.lean ====
section
/-! DEFINITION. The host's side of the engine: reset (R150), the load contract (R153), status and read-out (R31, R156). -/

namespace Sys2Proof.Machine

/-- Reset (R23, R150): every piece of engine state to its reset value; Code, Data, the symbol table and the capacities stay. It
is the only way out of HALTED and FAULTED. -/
def hostReset (s : State) : State :=
  { s with regs := RegFile.zero, flags := Flags.zero, run := .running, fault := FaultRecord.empty, stack := [] }

/-- What the host loads before the first step (R153). -/
structure Image where
  code   : Mem
  data   : Mem
  symtab : List SymbolEntry
  deriving DecidableEq, Repr

/-- The load contract (R153): Code, Data and the symbol table filled, the Stack left all 0, then reset. The engine checks nothing
of the image. -/
def hostLoad (im : Image) (s : State) : State :=
  hostReset { s with code := im.code, data := im.data, symtab := im.symtab, stack := [] }

/-- The status port: run state and fault record, readable at any step boundary (R31). -/
def readStatus (s : State) : RunState × FaultRecord := (s.run, s.fault)

/-- What the host may read at the end of a run (R156). -/
structure ReadOut where
  regs   : RegFile
  flags  : Flags
  run    : RunState
  fault  : FaultRecord
  stack  : Mem
  data   : Mem
  code   : Mem
  deriving DecidableEq, Repr

/-- The read-out port: everything when the run state is not RUNNING, nothing before (R155, R156). -/
def readOut (s : State) : Option ReadOut :=
  match s.run with
  | .running => none
  | .halted =>
    some { regs := s.regs, flags := s.flags, run := s.run, fault := s.fault, stack := s.stack, data := s.data, code := s.code }
  | .faulted =>
    some { regs := s.regs, flags := s.flags, run := s.run, fault := s.fault, stack := s.stack, data := s.data, code := s.code }

end Sys2Proof.Machine
end

