-- ==== Sys2Proof/Machine/Assembler.lean ====
section
/-! DEFINITION. The optional block in scope: the opcode encoder (R62 to R72). A source text is a list of blocks, a block a list
of lines already trimmed and free of comments (R62). It is the host's work before a run; no step uses it. -/

namespace Sys2Proof.Machine

/-- A token or a line: its ASCII characters. -/
abbrev Token := List Char

/-- A symbol of the assembler's table: the engine's entry and the name, which the engine does not see (R21). -/
structure NamedSymbol where
  name  : Token
  entry : SymbolEntry
  deriving DecidableEq, Repr

/-- The assembler's symbol table, in registration order. -/
abbrev SymbolTable := List NamedSymbol

/-- Why an assembly stops (R138, R66, R70, R72). All are fatal. -/
inductive AsmError where
  /-- The first line of a block is neither a declaration nor an instruction line (R63). -/
  | unknownBlockType
  /-- The first token of an instruction line is none of the eleven names (R66). -/
  | unknownMnemonic
  /-- The argument count differs from `nargs` (R67). -/
  | argumentCountMismatch
  /-- An argument token is no register, known symbol or literal (R65). -/
  | unresolvedSymbol (t : Token)
  /-- A literal above 2^32 - 1 (R70). -/
  | literalOutOfRange
  /-- The argument's kind is not in the allowed-kinds list of its slot (R68). -/
  | operandTypeMismatch
  /-- A block or a datum does not fit in the remaining words (R71), a label has no Code address left (log entry 17), or the
  table is full (R3). -/
  | allocationExhausted
  /-- A `dd` or `dc` declaration (R72). -/
  | unsupportedDeclaration
  /-- A declaration line not of the form `name: dtype value` (log entry 10). -/
  | malformedDeclaration
  /-- A second declaration of one name (log entry 9). -/
  | duplicateSymbol
  deriving DecidableEq, Repr

/-! ## Lines and tokens (R64) -/

/-- The register names, spelled as listed (R10, R64). -/
def registerName : Reg → Token
  | .pc => ['P', 'C'] | .ar => ['A', 'R'] | .st => ['S', 'T'] | .sb => ['S', 'B'] | .ft => ['F', 'T'] | .fb => ['F', 'B']
  | .ds => ['D', 'S'] | .de => ['D', 'E'] | .ct => ['C', 'T'] | .cb => ['C', 'B'] | .x0 => ['x', '0'] | .x1 => ['x', '1']
  | .x2 => ['x', '2']

/-- The mnemonics, spelled as listed (R54, R64). -/
def mnemonicName : Opcode → Token
  | .none => ['N', 'O', 'N', 'E'] | .halt => ['H', 'A', 'L', 'T'] | .jmp => ['J', 'M', 'P'] | .mov => ['M', 'O', 'V']
  | .cmp => ['C', 'M', 'P'] | .push => ['P', 'U', 'S', 'H'] | .pop => ['P', 'O', 'P'] | .add => ['A', 'D', 'D']
  | .sub => ['S', 'U', 'B'] | .call => ['C', 'A', 'L', 'L'] | .assert => ['A', 'S', 'S', 'E', 'R', 'T']

/-- The register a token names, by exact spelling (D20). -/
def registerNamed (t : Token) : Option Reg := Reg.all.find? fun r => registerName r == t

/-- The instruction a token names, by exact spelling (D20). -/
def mnemonicNamed (t : Token) : Option Opcode := Opcode.all.find? fun op => mnemonicName op == t

/-- White space inside a line: space, tab, carriage return (log entry 11). -/
def isSpace (c : Char) : Bool := c == ' ' || c == '\t' || c == '\r'

/-- The runs of characters between white space; `cur` is the token being read, reversed. -/
def splitSpace (cur : Token) : Token → List Token
  | [] => if cur.isEmpty then [] else [cur.reverse]
  | c :: cs =>
    if isSpace c then (if cur.isEmpty then splitSpace [] cs else cur.reverse :: splitSpace [] cs)
    else splitSpace (c :: cur) cs

/-- A token without its trailing comma (R64). -/
def stripComma (t : Token) : Token := if t.getLast? = some ',' then t.dropLast else t

/-- The tokens of a line: split on white space, a trailing comma stripped from each (R64). R64 says so of instruction lines; that
declaration lines are read by the same function is the model's choice (log entry 16). -/
def tokenize (line : Token) : List Token := (splitSpace [] line).map stripComma

/-! ## Literals (R70) -/

/-- The value of a digit in a base up to 16. -/
def digitValue (base : Nat) (c : Char) : Option Nat :=
  let n := c.toNat
  let v := if 48 ≤ n ∧ n ≤ 57 then n - 48 else if 97 ≤ n ∧ n ≤ 102 then n - 87 else if 65 ≤ n ∧ n ≤ 70 then n - 55 else 16
  if v < base then some v else none

/-- The value of a run of digits after the value read so far. -/
def digitsValue (base acc : Nat) : Token → Option Nat
  | [] => some acc
  | c :: cs =>
    match digitValue base c with
    | some v => digitsValue base (acc * base + v) cs
    | none => none

/-- A literal: decimal digits, or `0x` and hexadecimal digits; at least one digit, no sign (R70). -/
def literalValue : Token → Option Nat
  | [] => none
  | ['0', 'x'] => none
  | '0' :: 'x' :: c :: cs => digitsValue 16 0 (c :: cs)
  | c :: cs => digitsValue 10 0 (c :: cs)

/-- A literal as a word: larger than 2^32 - 1 is an error, never truncated (R70). -/
def literalWord (n : Nat) : Except AsmError Word :=
  if n < 2 ^ 32 then .ok (BitVec.ofNat 32 n) else .error .literalOutOfRange

/-! ## One instruction line (R65 to R69) -/

/-- The symbol of a name with its index. -/
def lookupName (tab : SymbolTable) (t : Token) : Option (Nat × SymbolEntry) :=
  match tab.findIdx? (fun n => n.name == t) with
  | some i => tab[i]?.map fun n => (i, n.entry)
  | none => none

/-- The name inside `[...]`, for a token of that shape. -/
def bracketed : Token → Option Token
  | '[' :: rest => if rest.getLast? = some ']' then some rest.dropLast else none
  | _ => none

/-- An argument as R65 classifies it. A literal is still the number written: its range is checked at emission (R69, R70). -/
inductive Argument where
  | register (r : Reg)
  | integer (n : Nat)
  | value (index : Nat)
  | address (location : Word)
  | symbol (index : Nat)
  deriving DecidableEq, Repr

/-- The kind of a classified argument (R65). -/
def Argument.kind : Argument → Kind
  | .register _ => .register
  | .integer _ => .integer
  | .value _ => .value
  | .address _ => .address
  | .symbol _ => .symbol

/-- The operand an argument is emitted as (R69): a literal in range, a symbol by its index, a scalar by its Data offset (D17). -/
def Argument.operand : Argument → Except AsmError Operand
  | .register r => .ok (.register r)
  | .integer n => do return .integer (← literalWord n)
  | .value i => .ok (.value (BitVec.ofNat 32 i))
  | .address d => .ok (.address d)
  | .symbol i => .ok (.symbol (BitVec.ofNat 32 i))

/-- The classification of an argument token, by the precedence of R65. `[name]` is VALUE for any known symbol, one named like a
register too, where R65's two consequences disagree (log entry 15). -/
def classify (tab : SymbolTable) (t : Token) : Except AsmError Argument :=
  match registerNamed t with
  | some r => .ok (.register r)
  | none =>
    match (bracketed t).bind (lookupName tab) with
    | some (i, _) => .ok (.value i)
    | none =>
      match lookupName tab t with
      | some (i, e) => if e.kind = .label then .ok (.symbol i) else .ok (.address e.location)
      | none =>
        match literalValue t with
        | some n => .ok (.integer n)
        | none => .error (.unresolvedSymbol t)

/-- The classified arguments of a line, slot 0 first; the first that fails stops it. -/
def classifyAll (tab : SymbolTable) : List Token → Except AsmError (List Argument)
  | [] => .ok []
  | t :: ts => do
    let a ← classify tab t
    let as ← classifyAll tab ts
    return a :: as

/-- The operands of a line's arguments, slot 0 first; the first literal out of range stops it (R69, R70). -/
def operandsOf : List Argument → Except AsmError (List Operand)
  | [] => .ok []
  | a :: as => do
    let o ← a.operand
    let os ← operandsOf as
    return o :: os

/-- The assembler's allowed-kinds lists, per slot (R56); they are wider than the engine's masks (R86). -/
def allowedKinds : Opcode → List (List Kind)
  | .none => []
  | .halt => []
  | .jmp => [[.symbol]]
  | .mov => [Kind.all, Kind.all]
  | .cmp => [Kind.all, Kind.all]
  | .push => [Kind.all]
  | .pop => [[.register]]
  | .add => [Kind.all, Kind.all]
  | .sub => [Kind.all, Kind.all]
  | .call => [[.symbol]]
  | .assert => [Kind.all, Kind.all]

/-- The kind check of R68: every argument's kind is in its slot's list. -/
def kindsAllowed (lists : List (List Kind)) (as : List Argument) : Bool :=
  (lists.zip as).all fun p => p.1.contains p.2.kind

/-- Emission (R69): the opcode number, then a kind word and a value word per argument. -/
def emit (op : Opcode) (os : List Operand) : List Word := op.number :: os.flatMap fun o => [o.kindWord, o.valueWord]

/-- `encode_line(tokens, symtab)` (R66): mnemonic, argument count, classification, kinds, emission, in this order. -/
def encodeLine (tab : SymbolTable) : List Token → Except AsmError (List Word)
  | [] => .error .unknownMnemonic
  | m :: args =>
    match mnemonicNamed m with
    | none => .error .unknownMnemonic
    | some op =>
      if args.length = op.nargs then do
        let as ← classifyAll tab args
        if kindsAllowed (allowedKinds op) as then return emit op (← operandsOf as) else .error .operandTypeMismatch
      else .error .argumentCountMismatch

/-! ## Blocks (R63, R71, R72) -/

/-- A block: its lines. -/
abbrev Block := List Token

/-- The name a declaration token declares: the token without its `:` (R63). -/
def declaredName (t : Token) : Option Token := if t.getLast? = some ':' then some t.dropLast else none

/-- The three kinds of block (R63): a LABEL block has its name and its later lines. -/
inductive BlockKind where
  | label (name : Token) (body : List Token)
  | data (lines : List Token)
  | code (lines : List Token)
  deriving DecidableEq, Repr

/-- The kind of a block, by the first token of its first line (R63), a trailing comma stripped from it (log entry 16). -/
def classifyBlock : Block → Except AsmError BlockKind
  | [] => .error .unknownBlockType
  | line :: body =>
    match tokenize line with
    | [] => .error .unknownBlockType
    | t :: rest =>
      match declaredName t with
      | some name => if rest.isEmpty then .ok (.label name body) else .ok (.data (line :: body))
      | none => if (mnemonicNamed t).isSome then .ok (.code (line :: body)) else .error .unknownBlockType

/-- Every block's kind, in source order. -/
def classifyBlocks : List Block → Except AsmError (List BlockKind)
  | [] => .ok []
  | b :: bs => do
    let k ← classifyBlock b
    let ks ← classifyBlocks bs
    return k :: ks

/-- What pass 1 has built: the table, the Data content and the Data cursor (R72). -/
structure Registration where
  table  : SymbolTable
  data   : Mem
  cursor : Nat
  deriving DecidableEq, Repr

/-- One symbol registered after those before it, so its index is their count (R72). -/
def Registration.add (r : Registration) (name : Token) (e : SymbolEntry) : Except AsmError Registration :=
  if r.table.any (fun n => n.name == name) then .error .duplicateSymbol
  else if r.table.length + 1 < 2 ^ 32 then .ok { r with table := r.table ++ [{ name := name, entry := e }] }
  else .error .allocationExhausted

/-- The scalar kinds a declaration may take: db, ds and di, one Data word each; dd and dc are refused (R63, R72). -/
def scalarKind (dtype : Token) : Except AsmError SymbolKind :=
  if dtype = ['d', 'b'] then .ok .byte
  else if dtype = ['d', 's'] then .ok .short
  else if dtype = ['d', 'i'] then .ok .integer
  else if dtype = ['d', 'd'] ∨ dtype = ['d', 'c'] then .error .unsupportedDeclaration
  else .error .malformedDeclaration

/-- One declaration line `name: dtype value` (R63, R72): the literal goes to the next Data word as a full word. A trailing comma
is stripped from each token (log entry 16). -/
def declare (dataWords : Nat) (r : Registration) (line : Token) : Except AsmError Registration :=
  match tokenize line with
  | [t, dtype, v] =>
    match declaredName t, literalValue v with
    | some name, some n => do
      let kind ← scalarKind dtype
      let w ← literalWord n
      if r.cursor < dataWords then
        let r' ← r.add name { kind := kind, resolved := true, location := BitVec.ofNat 32 r.cursor }
        return { r' with data := Mem.write r.data r.cursor w, cursor := r.cursor + 1 }
      else .error .allocationExhausted
    | some _, none => do
      let _ ← scalarKind dtype
      .error .malformedDeclaration
    | none, _ => .error .malformedDeclaration
  | _ => .error .malformedDeclaration

/-- The declaration lines of a DATA block, in line order. -/
def declareAll (dataWords : Nat) (r : Registration) : List Token → Except AsmError Registration
  | [] => .ok r
  | l :: ls => do
    let r' ← declare dataWords r l
    declareAll dataWords r' ls

/-- Pass 1 (R72): the blocks in source order; a label is registered unresolved, its location word 0 (log entry 12). -/
def registerAll (dataWords : Nat) (r : Registration) : List BlockKind → Except AsmError Registration
  | [] => .ok r
  | .label name _ :: bs => do
    let r' ← r.add name { kind := .label, resolved := false, location := 0 }
    registerAll dataWords r' bs
  | .data lines :: bs => do
    let r' ← declareAll dataWords r lines
    registerAll dataWords r' bs
  | .code _ :: bs => registerAll dataWords r bs

/-- The words of a block's instruction lines, in order (R71). -/
def encodeLines (tab : SymbolTable) : List Token → Except AsmError (List Word)
  | [] => .ok []
  | l :: ls => do
    let ws ← encodeLine tab (tokenize l)
    let rest ← encodeLines tab ls
    return ws ++ rest

/-- A label's entry resolved at the address its block starts at (R71). -/
def patchLabel (tab : SymbolTable) (name : Token) (start : Nat) : SymbolTable :=
  tab.map fun n =>
    if n.name = name then { n with entry := { n.entry with resolved := true, location := BitVec.ofNat 32 start } } else n

/-- What pass 2 has built: the table, the Code content and the Code cursor (R71). -/
structure Placement where
  table  : SymbolTable
  code   : Mem
  cursor : Nat
  deriving DecidableEq, Repr

/-- The words of one block at the cursor, or AllocationExhausted where they do not fit (R71). -/
def Placement.place (codeWords : Nat) (p : Placement) (lines : List Token) : Except AsmError Placement := do
  let ws ← encodeLines p.table lines
  if p.cursor + ws.length ≤ codeWords then
    return { p with code := Mem.writeWords p.code p.cursor ws, cursor := p.cursor + ws.length }
  else .error .allocationExhausted

/-- A LABEL block at the cursor, its label resolved there (R71). The start must be a Code address, so that an empty block when
Code is full is AllocationExhausted: R71 speaks of words that do not fit, R154 (b) says that a label lies in Code (log entry
17). -/
def Placement.placeLabel (codeWords : Nat) (p : Placement) (name : Token) (body : List Token) : Except AsmError Placement := do
  let p' ← p.place codeWords body
  if p.cursor < codeWords then return { p' with table := patchLabel p'.table name p.cursor }
  else .error .allocationExhausted

/-- Pass 2 (R71): CODE and LABEL blocks in order, each where the previous one ended. -/
def placeAll (codeWords : Nat) (p : Placement) : List BlockKind → Except AsmError Placement
  | [] => .ok p
  | .label name body :: bs => do
    let p' ← p.placeLabel codeWords name body
    placeAll codeWords p' bs
  | .code lines :: bs => do
    let p' ← p.place codeWords lines
    placeAll codeWords p' bs
  | .data _ :: bs => placeAll codeWords p bs

/-- The image of a source text (R62 to R72), for the load contract (R153). -/
def assemble (cfg : Config) (source : List Block) : Except AsmError Image := do
  let blocks ← classifyBlocks source
  let r ← registerAll cfg.dataWords { table := [], data := [], cursor := 0 } blocks
  let p ← placeAll cfg.codeWords { table := r.table, code := [], cursor := 0 } blocks
  return { code := p.code, data := r.data, symtab := p.table.map NamedSymbol.entry }

end Sys2Proof.Machine
end

