-- ==== Sys2Proof/Machine/Microsequence.lean ====
section
/-! DEFINITION. The accesses of one step in order (R31, R46, R89): what the engine asks of its ports, not a part of its state. -/

namespace Sys2Proof.Machine

/-- One transaction of the engine at a port (R31). -/
inductive Access where
  | read (seg : Segment) (addr : Word)
  | write (seg : Segment) (addr v : Word)
  | lookup (i : Word)
  deriving DecidableEq, Repr

/-- The fault an access raises, if any (R22, R33). -/
def Access.fault (s : State) : Access → Option EngineFault
  | .read seg addr => if s.capacity seg ≤ addr.toNat then some (.outOfBounds seg addr) else none
  | .write seg addr _ => if s.capacity seg ≤ addr.toNat then some (.outOfBounds seg addr) else none
  | .lookup i =>
    match s.symtab[i.toNat]? with
    | some e => if e.resolved then none else some (.unresolvedSymbol i)
    | none => some (.unresolvedSymbol i)

/-- The accesses of resolving an operand (R46, R88): none for REGISTER, INTEGER and ADDRESS; the lookup for SYMBOL; the lookup
and then the Data read at the location it gave for VALUE. -/
def resolveAccesses (o : Operand) (s : State) : List Access :=
  match o with
  | .register _ => []
  | .integer _ => []
  | .address _ => []
  | .symbol i => [.lookup i]
  | .value i =>
    match s.symtab[i.toNat]? with
    | some e => [.lookup i, .read .data e.location]
    | none => [.lookup i]

/-- The operand accesses of an argument; an illegal one faults before any (R46, R85). -/
def argAccesses (a : Arg) (s : State) : List Access :=
  match a with
  | .operand o => resolveAccesses o s
  | .illegal _ _ => []

/-- The value an argument gives to a write, 0 where it gives none (the write is then never reached). -/
def argValue (a : Arg) (s : State) : Word :=
  match a with
  | .operand o => (resolve o s).toOption.getD 0
  | .illegal _ _ => 0

/-- The Code reads of an instruction: its words in ascending address order (R84). -/
def codeAccesses (i : Instr) (s : State) : List Access :=
  (List.range i.size).map fun j => .read .code (s.reg .ar + BitVec.ofNat 32 j)

/-- The accesses after the Code reads and the static checks: the table of R46, row by row. -/
def operandAccesses (i : Instr) (s : State) : List Access :=
  match i with
  | .none => []
  | .halt => []
  | .jmp target => argAccesses target s
  | .call target => argAccesses target s ++ [.write .stack (s.reg .st) (s.reg .pc + 3)]
  | .push src => argAccesses src s ++ [.write .stack (s.reg .st) (argValue src s)]
  | .pop _ => [.read .stack (s.reg .st - 1), .write .stack (s.reg .st - 1) 0]
  | .mov _ src => argAccesses src s
  | .add _ src => argAccesses src s
  | .sub _ src => argAccesses src s
  | .assert _ b => argAccesses b s
  | .cmp a b => argAccesses a s ++ argAccesses b s

/-- The whole microsequence of a step that fetched a well-formed instruction (R46). A fault at any access ends it there. -/
def microsequence (i : Instr) (s : State) : List Access := codeAccesses i s ++ operandAccesses i s

/-- The fault of the first access of a list that fails. -/
def firstFault (s : State) : List Access → Option EngineFault
  | [] => none
  | a :: as =>
    match a.fault s with
    | some f => some f
    | none => firstFault s as

end Sys2Proof.Machine
end

