-- ==== Sys2Proof/Safety.lean ====
section
/-! DEFINITION. The terms the claims are stated in: the invariant of the machine, what an operand is worth, what an instruction
leaves unchanged, and the fault of a step read from its raw words in the order of R134. -/

namespace Sys2Proof.Machine

/-! ## The invariant -/

/-- The fault record is valid only in FAULTED (R17): there its cause is 1 to 5 and `at` is AR (R136); elsewhere it is empty. -/
abbrev State.recordValid (s : State) : Prop :=
  (s.run = .faulted → 1 ≤ s.fault.cause.toNat ∧ s.fault.cause.toNat ≤ 5 ∧ s.fault.atAddr = s.reg .ar) ∧
    (s.run ≠ .faulted → s.fault = FaultRecord.empty)

/-- A segment holds words of its own address space only, in the canonical form (R30, R33). -/
abbrev State.segmentWf (s : State) (seg : Segment) : Prop :=
  Mem.wf (s.segment seg) ∧ Mem.within (s.capacity seg) (s.segment seg)

/-- What holds of the machine at every step boundary: legal capacities (R3), the segments' form, `NSYM < 2^32` (R3), and a valid
fault record. -/
abbrev State.wf (s : State) : Prop :=
  s.cfg.wf ∧ (s.segmentWf .stack ∧ s.segmentWf .data ∧ s.segmentWf .code) ∧ s.symtab.length < 2 ^ 32 ∧ s.recordValid

/-- PC and AR agree (R14). -/
abbrev State.lockstep (s : State) : Prop := s.reg .pc = s.reg .ar

/-! ## Operands -/

/-- The symbol has an entry whose location is known (R22). -/
def State.hasLocation (s : State) (i : Word) : Bool :=
  match s.symtab[i.toNat]? with
  | some e => e.resolved
  | none => false

/-- The location word of a symbol's entry, 0 where there is no entry. -/
def State.locationOf (s : State) (i : Word) : Word :=
  match s.symtab[i.toNat]? with
  | some e => e.location
  | none => 0

/-- The fault of resolving an operand, if any, in the order of R134: UnresolvedSymbol, then OutOfBounds(DATA, loc). -/
def resolutionFault (s : State) : Operand → Option EngineFault
  | .register _ => none
  | .integer _ => none
  | .address _ => none
  | .symbol i => if s.hasLocation i then none else some (.unresolvedSymbol i)
  | .value i =>
    if s.hasLocation i then
      (if (s.locationOf i).toNat < s.cfg.dataWords then none else some (.outOfBounds .data (s.locationOf i)))
    else some (.unresolvedSymbol i)

/-- What an operand is worth (R88), read from the state directly. -/
def operandValue (s : State) : Operand → Word
  | .register r => s.reg r
  | .integer n => n
  | .address d => d
  | .symbol i => s.locationOf i
  | .value i => Mem.read s.data (s.locationOf i).toNat

/-! ## Frames -/

/-- What no instruction but the run-state ones writes: run state, fault record, capacities, symbol table. -/
def sameControl (s t : State) : Prop :=
  t.run = s.run ∧ t.fault = s.fault ∧ t.cfg = s.cfg ∧ t.symtab = s.symtab

/-- Every flag as before. -/
def sameFlags (s t : State) : Prop := ∀ f, t.flag f = s.flag f

/-- Every word of every segment reads as before. -/
def sameMemory (s t : State) : Prop := ∀ seg a, memRead seg a t = memRead seg a s

/-- Every word of every segment but one Stack word reads as before. -/
def sameMemoryBut (sp : Word) (s t : State) : Prop :=
  ∀ seg a, (seg ≠ .stack ∨ a ≠ sp) → memRead seg a t = memRead seg a s

/-- The default advance seen at one register: PC and AR take `n` more, any other keeps its value (R92). -/
def advanced (n : Nat) (r : Reg) (v : Word) : Word := if r = .pc ∨ r = .ar then v + BitVec.ofNat 32 n else v

/-- A control transfer seen at one register: PC and AR take the target, any other keeps its value (R105, R120). -/
def transferred (target : Word) (r : Reg) (v : Word) : Word := if r = .pc ∨ r = .ar then target else v

/-- The register an instruction names as its destination, if it has one: slot 0 of MOV, ADD, SUB and POP (R12). -/
def destinationOf : Instr → Option Reg
  | .mov (.operand (.register d)) _ => some d
  | .add (.operand (.register d)) _ => some d
  | .sub (.operand (.register d)) _ => some d
  | .pop (.operand (.register d)) => some d
  | _ => none

/-! ## The faults every rule of an instruction lists -/

/-- The fetch fault of a row of 3 or 5 words: its opcode word stands at AR and its last word lies outside Code (R82). -/
def FetchFault (op : Opcode) : Prop :=
  ∀ s : State, s.run = .running → s.cfg.wf → memRead .code (s.reg .ar) s = .ok op.number →
    s.cfg.codeWords < (s.reg .ar).toNat + op.size →
    step s = .next (s.takeFault (.outOfBounds .code (BitVec.ofNat 32 s.cfg.codeWords)))

/-- The operand faults of a row whose slot 0 is REGISTER and whose slot 1 is ALL, in their order (R110, R111, R112, R125). -/
def RegisterSourceFaults (row : Arg → Arg → Instr) : Prop :=
  ∀ (s : State) (a b : Arg),
    (a.isRegister = false → exec (row a b) s = .next (s.takeFault (illegalArg 0 a))) ∧
    (a.isRegister = true → b.isLegal = false → exec (row a b) s = .next (s.takeFault (illegalArg 1 b))) ∧
    (∀ o f, a.isRegister = true → b = .operand o → resolutionFault s o = some f →
      exec (row a b) s = .next (s.takeFault f))

/-- The operand faults of a row whose one slot is SYMBOL, in their order (R105, R120). -/
def SymbolFaults (row : Arg → Instr) : Prop :=
  ∀ (s : State) (a : Arg),
    (a.isSymbol = false → exec (row a) s = .next (s.takeFault (illegalArg 0 a))) ∧
    (∀ i, a = .operand (.symbol i) → s.hasLocation i = false →
      exec (row a) s = .next (s.takeFault (.unresolvedSymbol i)))

/-! ## The fault of a step, from its raw words (R134) -/

/-- The argument counts of R51 by opcode number. -/
def rawNargs (w : Nat) : Nat := [0, 0, 1, 2, 2, 1, 1, 2, 2, 1, 2].getD w 0

/-- The engine slot masks of R86 by opcode number: slot 0, slot 1; 0 where the instruction has no such slot. -/
def rawMasks (w : Nat) : Word × Word :=
  [(0, 0), (0, 0), (0x10, 0), (0x01, 0x1F), (0x1F, 0x1F), (0x1F, 0), (0x01, 0), (0x01, 0x1F), (0x01, 0x1F), (0x10, 0),
    (0x01, 0x1F)].getD w (0, 0)

/-- The Code word at an offset from AR, as plain content. -/
def State.wordAtOffset (s : State) (j : Nat) : Word := Mem.read s.code ((s.reg .ar).toNat + j)

/-- The fetch fault at an offset from AR (R82). -/
def fetchFaultAt (s : State) (j : Nat) : Option EngineFault :=
  if (s.reg .ar).toNat + j < s.cfg.codeWords then none
  else some (.outOfBounds .code (s.reg .ar + BitVec.ofNat 32 j))

/-- The static checks of one slot, in the order of R85, R86, R87. -/
def staticFault (slot : Fin 2) (mask k v : Word) : Option EngineFault :=
  if k ≠ 0x01 ∧ k ≠ 0x02 ∧ k ≠ 0x04 ∧ k ≠ 0x08 ∧ k ≠ 0x10 then some (.illegalOperand slot k v)
  else if k &&& mask = 0 then some (.illegalOperand slot k v)
  else if k = 0x01 ∧ 13 ≤ v.toNat then some (.illegalOperand slot k v)
  else none

/-- The resolution fault of a kind word and a value word that passed the static checks (R88, R134). -/
def rawResolutionFault (s : State) (k v : Word) : Option EngineFault :=
  if k = 0x04 then resolutionFault s (.value v) else if k = 0x10 then resolutionFault s (.symbol v) else none

/-- The value of a kind word and a value word that passed the static checks (R88). -/
def rawValue (s : State) (k v : Word) : Word :=
  if k = 0x01 then (Reg.all[v.toNat]?.map s.reg).getD 0
  else if k = 0x04 then operandValue s (.value v)
  else if k = 0x10 then operandValue s (.symbol v)
  else v

/-- The instruction's own check, item 8 of R134: the Stack bounds of PUSH, POP and CALL, and the test of ASSERT. -/
def ownFault (s : State) (w : Nat) (k0 v0 k1 v1 : Word) : Option EngineFault :=
  if w = 5 ∨ w = 9 then
    (if (s.reg .st).toNat < s.cfg.stackWords then none else some (.outOfBounds .stack (s.reg .st)))
  else if w = 6 then
    (if (s.reg .st - 1).toNat < s.cfg.stackWords then none else some (.outOfBounds .stack (s.reg .st - 1)))
  else if w = 10 ∧ rawValue s k0 v0 ≠ rawValue s k1 v1 then
    (match Arg.ofWords k0 v0, Arg.ofWords k1 v1 with
      | .operand (.register ra), .operand o => some (.assertionFailed ra (rawValue s k0 v0) o (rawValue s k1 v1))
      | _, _ => none)
  else none

/-- The first fault of a list of checks. -/
def firstOf : List (Option EngineFault) → Option EngineFault
  | [] => none
  | some f :: _ => some f
  | none :: cs => firstOf cs

/-- The fault of a step, if any: the earliest in the eight items of R134. Slot 0 of MOV, POP, ADD, SUB and ASSERT is a register,
which resolves without a fault; slot 1 exists where `rawNargs` is 2. -/
def stepFault (s : State) : Option EngineFault :=
  let op := s.wordAtOffset 0
  let w := op.toNat
  let n := rawNargs w
  let k0 := s.wordAtOffset 1
  let v0 := s.wordAtOffset 2
  let k1 := s.wordAtOffset 3
  let v1 := s.wordAtOffset 4
  firstOf
    [ fetchFaultAt s 0,
      if 11 ≤ w then some (.illegalOpcode op) else none,
      if 1 ≤ n then fetchFaultAt s 1 else none,
      if 1 ≤ n then fetchFaultAt s 2 else none,
      if 2 ≤ n then fetchFaultAt s 3 else none,
      if 2 ≤ n then fetchFaultAt s 4 else none,
      if 1 ≤ n then staticFault 0 (rawMasks w).1 k0 v0 else none,
      if 2 ≤ n then staticFault 1 (rawMasks w).2 k1 v1 else none,
      if 1 ≤ n then rawResolutionFault s k0 v0 else none,
      if 2 ≤ n then rawResolutionFault s k1 v1 else none,
      ownFault s w k0 v0 k1 v1 ]

/-! ## What a program cannot read -/

/-- The state with other flags and another fault record: what no instruction reads (R15, R17, R18). -/
def State.withUnread (s : State) (fl : Flags) (fr : FaultRecord) : State := { s with flags := fl, fault := fr }

/-- A step from `s` to `t` completes a CMP: the only steps that write ZF, PF and SF (R15, R126). -/
def comparesFlags (s t : State) : Bool :=
  match s.run, t.run, fetch s with
  | .running, .running, .ok (.cmp _ _) => true
  | _, _, _ => false

/-- The flags a step from `s` to `t` leaves when the flags before it were `fl`: those it writes, and the rest of `fl` (R15). -/
def flagsLeft (s t : State) (fl : Flags) : Flags :=
  if comparesFlags s t then { fl with zf := t.flags.zf, pf := t.flags.pf, sf := t.flags.sf } else fl

/-- The record a step from `s` to `t` leaves when the record before it was `fr`: the one it latches, or else `fr` (R17). -/
def recordLeft (s t : State) (fr : FaultRecord) : FaultRecord :=
  if s.run = .running ∧ t.run = .faulted then t.fault else fr

/-- The state with the kinds of the symbol entries changed (R22: the engine does not inspect them). -/
def State.withKinds (s : State) (k : SymbolEntry → SymbolKind) : State :=
  { s with symtab := s.symtab.map fun e => { e with kind := k e } }

/-! ## What a source text lays out -/

/-- The instruction lines of a block (R63, R71). -/
def BlockKind.instructionLines : BlockKind → List Token
  | .label _ body => body
  | .data _ => []
  | .code lines => lines

/-- How many symbols a block registers (R72). -/
def BlockKind.symbolCount : BlockKind → Nat
  | .label _ _ => 1
  | .data lines => lines.length
  | .code _ => 0

/-- The row of an instruction line, by its first token (R64). -/
def lineOpcode (line : Token) : Option Opcode := (tokenize line).head?.bind mnemonicNamed

/-- The words of instruction lines, counted from their mnemonics alone (R51). -/
def linesSize (lines : List Token) : Nat := (lines.map fun l => ((lineOpcode l).map Opcode.size).getD 0).sum

end Sys2Proof.Machine
end

