-- ==== Sys2Proof/Certificates/Slice0/Obligations.lean ====
section
/-! DEFINITION. The statements for the provers, each from the rules of the spec its docstring names. -/

open Sys2Proof Sys2Proof.Machine

/-! ## The step -/

/-- R80, R81, R84, R90: while RUNNING, when the Code words from AR on decode to an instruction, the step is that instruction. -/
def Obligations.StepRunsDecodedInstruction : Prop :=
  ∀ (s : State) (ws : List Word) (i : Instr), s.run = .running →
    (∀ j w, ws[j]? = some w → memRead .code (s.reg .ar + BitVec.ofNat 32 j) s = .ok w) →
    decode ws = .ok i → step s = exec i s

/-- R82: a fetch outside Code faults with the first address out of bounds; execution never wraps to address 0. The rule is the
spec's own derivation from R33. -/
def Obligations.FetchOutsideCodeFaults : Prop :=
  (∀ s : State, s.run = .running → s.cfg.codeWords ≤ (s.reg .ar).toNat →
    step s = .next (s.takeFault (.outOfBounds .code (s.reg .ar)))) ∧
  ∀ op, op ≠ .none → op ≠ .halt → FetchFault op

/-- R50, R51: a fetched instruction is a run of consecutive Code words from AR on: its opcode word, then for each argument its kind
word and its value word, as many as the row's argument count gives, `1 + 2*nargs` words in all. -/
def Obligations.FetchedWordsFollowTheFormats : Prop :=
  ∀ (s : State) (i : Instr), fetch s = .ok i →
    memRead .code (s.reg .ar) s = .ok i.opcode.number ∧
    (∀ k a, i.args[k]? = some a → ∃ kw vw, a.words = [kw, vw] ∧
      memRead .code (s.reg .ar + BitVec.ofNat 32 (1 + 2 * k)) s = .ok kw ∧
      memRead .code (s.reg .ar + BitVec.ofNat 32 (2 + 2 * k)) s = .ok vw) ∧
    i.args.length = i.opcode.nargs ∧ (encode i).length = 1 + 2 * i.args.length ∧
    Opcode.all.map Opcode.nargs = [0, 0, 1, 2, 2, 1, 1, 2, 2, 1, 2]

/-- R83: the opcode word selects the row of that number in the list of R54, with its argument count; 11 and above fault. The
fault of words 11 and above is the spec's decision D9. -/
def Obligations.OpcodeWordSelectsRow : Prop :=
  ∀ (s : State) (w : Word), memRead .code (s.reg .ar) s = .ok w →
    (s.run = .running → 11 ≤ w.toNat → step s = .next (s.takeFault (.illegalOpcode w))) ∧
    (∀ i, fetch s = .ok i → Opcode.all[w.toNat]? = some i.opcode ∧ i.args.length = rawNargs w.toNat)

/-- R80, R137: in HALTED and FAULTED no state changes (that the step then answers the same state is the model's form, log entry
1). -/
def Obligations.NoStateChangesUnlessRunning : Prop := ∀ s : State, s.run ≠ .running → step s = .next s

/-- R16: RUNNING becomes HALTED by a completed NONE or HALT and in no other way, FAULTED by a fault and in no other way; HALTED
and FAULTED are left by reset only. FAULTED is the spec's decision D7; that a step in HALTED and FAULTED answers the same state
is the model's form, log entry 1. -/
def Obligations.RunStateTransitions : Prop :=
  ∀ s : State,
    (∀ t, step s = .next t →
      (s.run ≠ .running → t = s) ∧
      (s.run = .running →
        (t.run = .halted ↔ fetch s = .ok .none ∨ fetch s = .ok .halt) ∧
        (t.run = .faulted ↔ ∃ f, t = s.takeFault f))) ∧
    (hostReset s).run = .running

/-- R162, R80: a step always answers a next state; the engine has no stop of any other kind. The form of the answer in HALTED
and FAULTED is the model's, log entry 1. -/
def Obligations.EveryStepAnswersNext : Prop := ∀ s : State, ∃ t, step s = .next t

/-! ## The instructions -/

/-- R100, R101: NONE and HALT: one word, the run state HALTED, PC and AR one further, nothing else; only the fetch can fault.
That they advance is the spec's decision D13. -/
def Obligations.NoneAndHaltEndTheRun : Prop :=
  encode .none = [0] ∧ encode .halt = [1] ∧
  (∀ i s, i = Instr.none ∨ i = Instr.halt → ∃ t, exec i s = .next t ∧ t.run = .halted ∧
    (∀ r, t.reg r = advanced 1 r (s.reg r)) ∧ sameFlags s t ∧ sameMemory s t ∧ t.fault = s.fault ∧ t.cfg = s.cfg ∧
    t.symtab = s.symtab) ∧
  (∀ s : State, s.run = .running → s.cfg.codeWords ≤ (s.reg .ar).toNat →
    step s = .next (s.takeFault (.outOfBounds .code (s.reg .ar))))

/-- R105: JMP: PC and AR become the symbol's location, whatever it is; nothing else changes; a target outside Code faults at the
next step, and a jump to its own address from PC = AR changes nothing; its faults in order. That the target outside Code faults
at the next step is the spec's own derivation from R82; that the symbol's kind is ignored is its decision D11 (log entry 13),
and the IllegalOperand fault its decision D10. -/
def Obligations.JmpTransfersToLocation : Prop :=
  (∀ i, encode (.jmp (.operand (.symbol i))) = [2, 0x10, i]) ∧
  (∀ (s : State) (i : Word), s.hasLocation i = true → ∃ t, exec (.jmp (.operand (.symbol i))) s = .next t ∧
    (∀ r, t.reg r = transferred (s.locationOf i) r (s.reg r)) ∧ sameFlags s t ∧ sameMemory s t ∧ sameControl s t ∧
    (s.run = .running → s.cfg.codeWords ≤ (s.locationOf i).toNat →
      step t = .next (t.takeFault (.outOfBounds .code (s.locationOf i)))) ∧
    (s.lockstep → s.locationOf i = s.reg .ar → t = s)) ∧
  SymbolFaults .jmp ∧ FetchFault .jmp

/-- R110: MOV: the destination takes the resolved source, PC and AR advance by 5 from the values they then hold (R93), nothing
else changes; its faults in order. That it writes no flag is the spec's decision D16; that PC and AR advance from the value just
written to them is its decision D12 (R93, log entry 13). -/
def Obligations.MovWritesResolvedSource : Prop :=
  (∀ d o, encode (.mov (.operand (.register d)) (.operand o)) = [3, 0x01, d.ordinal, o.kindWord, o.valueWord]) ∧
  (∀ s d o, resolutionFault s o = none → ∃ t, exec (.mov (.operand (.register d)) (.operand o)) s = .next t ∧
    (∀ r, t.reg r = advanced 5 r (if r = d then operandValue s o else s.reg r)) ∧
    sameFlags s t ∧ sameMemory s t ∧ sameControl s t) ∧
  RegisterSourceFaults .mov ∧ FetchFault .mov

/-- R111: ADD: the destination takes its old value plus the resolved source, modulo 2^32; no flag; its faults in order. That it
writes no flag is the spec's decision D16; that PC and AR advance from the value just written to them is its decision D12 (R93,
log entry 13). -/
def Obligations.AddWritesSum : Prop :=
  (∀ d o, encode (.add (.operand (.register d)) (.operand o)) = [7, 0x01, d.ordinal, o.kindWord, o.valueWord]) ∧
  (∀ s d o, resolutionFault s o = none → ∃ t, exec (.add (.operand (.register d)) (.operand o)) s = .next t ∧
    (∀ r, t.reg r = advanced 5 r
      (if r = d then BitVec.ofNat 32 (((s.reg d).toNat + (operandValue s o).toNat) % 2 ^ 32) else s.reg r)) ∧
    sameFlags s t ∧ sameMemory s t ∧ sameControl s t) ∧
  RegisterSourceFaults .add ∧ FetchFault .add

/-- R112: SUB: the destination takes its old value minus the resolved source, modulo 2^32; no flag; its faults in order. That it
writes no flag is the spec's decision D16; that PC and AR advance from the value just written to them is its decision D12 (R93,
log entry 13). -/
def Obligations.SubWritesDifference : Prop :=
  (∀ d o, encode (.sub (.operand (.register d)) (.operand o)) = [8, 0x01, d.ordinal, o.kindWord, o.valueWord]) ∧
  (∀ s d o, resolutionFault s o = none → ∃ t, exec (.sub (.operand (.register d)) (.operand o)) s = .next t ∧
    (∀ r, t.reg r = advanced 5 r
      (if r = d then BitVec.ofInt 32 (((s.reg d).toNat - (operandValue s o).toNat : Int) % 2 ^ 32) else s.reg r)) ∧
    sameFlags s t ∧ sameMemory s t ∧ sameControl s t) ∧
  RegisterSourceFaults .sub ∧ FetchFault .sub

/-- R115: PUSH: the resolved source goes to Stack[ST], ST takes one more, PC and AR advance by 3; its faults in order. The
premise on the Stack's form is part of `State.wf`. That a resolution fault comes before the Stack check is the spec's decision
D8 (log entry 13); the value of a SYMBOL operand, and that a symbol's kind is ignored, are its decision D11 (R88, log entry 13);
the IllegalOperand fault is its decision D10; the fetch fault is its own derivation (R82). -/
def Obligations.PushStoresAtStackTop : Prop :=
  (∀ o, encode (.push (.operand o)) = [5, o.kindWord, o.valueWord]) ∧
  (∀ s o, Mem.wf s.stack → resolutionFault s o = none → (s.reg .st).toNat < s.cfg.stackWords →
    ∃ t, exec (.push (.operand o)) s = .next t ∧
      (∀ r, t.reg r = advanced 3 r (if r = .st then s.reg .st + 1 else s.reg r)) ∧
      memRead .stack (s.reg .st) t = .ok (operandValue s o) ∧ sameMemoryBut (s.reg .st) s t ∧
      sameFlags s t ∧ sameControl s t) ∧
  (∀ s a, a.isLegal = false → exec (.push a) s = .next (s.takeFault (illegalArg 0 a))) ∧
  (∀ s o f, resolutionFault s o = some f → exec (.push (.operand o)) s = .next (s.takeFault f)) ∧
  (∀ s o, resolutionFault s o = none → s.cfg.stackWords ≤ (s.reg .st).toNat →
    exec (.push (.operand o)) s = .next (s.takeFault (.outOfBounds .stack (s.reg .st)))) ∧
  FetchFault .push

/-- R116: POP: the word below ST goes to the destination, written last, that slot becomes 0, ST takes one less, PC and AR
advance by 3; its faults in order, the wrapped address of an empty stack among them. That the destination is written last is the
spec's decision D14 (log entry 13); that PC and AR advance from the value just written to them is its decision D12 (R93, log
entry 13). -/
def Obligations.PopLoadsAndZeroesStackTop : Prop :=
  (∀ d, encode (.pop (.operand (.register d))) = [6, 0x01, d.ordinal]) ∧
  (∀ s d v, Mem.wf s.stack → memRead .stack (s.reg .st - 1) s = .ok v →
    ∃ t, exec (.pop (.operand (.register d))) s = .next t ∧
      (∀ r, t.reg r = advanced 3 r (if r = d then v else if r = .st then s.reg .st - 1 else s.reg r)) ∧
      memRead .stack (s.reg .st - 1) t = .ok 0 ∧ sameMemoryBut (s.reg .st - 1) s t ∧
      sameFlags s t ∧ sameControl s t) ∧
  (∀ s a, a.isRegister = false → exec (.pop a) s = .next (s.takeFault (illegalArg 0 a))) ∧
  (∀ s d, s.cfg.stackWords ≤ (s.reg .st - 1).toNat →
    exec (.pop (.operand (.register d))) s = .next (s.takeFault (.outOfBounds .stack (s.reg .st - 1)))) ∧
  (∀ s d, s.cfg.wf → s.reg .st = 0 →
    exec (.pop (.operand (.register d))) s = .next (s.takeFault (.outOfBounds .stack 0xFFFFFFFF))) ∧
  FetchFault .pop

/-- R120: CALL: PC + 3 goes to Stack[ST], ST takes one more, PC and AR become the symbol's location; its faults in order, the
target resolved before the stack is touched; a target outside Code faults at the next step. The order of its checks is the
spec's decision D8 (log entry 13); that the symbol's kind is ignored is its decision D11 (log entry 13). -/
def Obligations.CallPushesReturnAddress : Prop :=
  (∀ i, encode (.call (.operand (.symbol i))) = [9, 0x10, i]) ∧
  (∀ (s : State) (i : Word), Mem.wf s.stack → s.hasLocation i = true → (s.reg .st).toNat < s.cfg.stackWords →
    ∃ t, exec (.call (.operand (.symbol i))) s = .next t ∧
      (∀ r, t.reg r = transferred (s.locationOf i) r (if r = .st then s.reg .st + 1 else s.reg r)) ∧
      memRead .stack (s.reg .st) t = .ok (s.reg .pc + 3) ∧ sameMemoryBut (s.reg .st) s t ∧
      sameFlags s t ∧ sameControl s t ∧
      (s.run = .running → s.cfg.codeWords ≤ (s.locationOf i).toNat →
        step t = .next (t.takeFault (.outOfBounds .code (s.locationOf i))))) ∧
  SymbolFaults .call ∧
  (∀ (s : State) (i : Word), s.hasLocation i = true → s.cfg.stackWords ≤ (s.reg .st).toNat →
    exec (.call (.operand (.symbol i))) s = .next (s.takeFault (.outOfBounds .stack (s.reg .st)))) ∧
  FetchFault .call

/-- R125: ASSERT: with equal words only PC and AR change, by 5; with unequal words it takes AssertionFailed with both operands
and their values; its other faults in order. That it writes no flag is the spec's decision D16; the words of the fault are its
decision D7. -/
def Obligations.AssertComparesWords : Prop :=
  (∀ ra o, encode (.assert (.operand (.register ra)) (.operand o)) = [10, 0x01, ra.ordinal, o.kindWord, o.valueWord]) ∧
  (∀ s ra o, resolutionFault s o = none → s.reg ra = operandValue s o →
    ∃ t, exec (.assert (.operand (.register ra)) (.operand o)) s = .next t ∧
      (∀ r, t.reg r = advanced 5 r (s.reg r)) ∧ sameFlags s t ∧ sameMemory s t ∧ sameControl s t) ∧
  (∀ s ra o, resolutionFault s o = none → s.reg ra ≠ operandValue s o →
    exec (.assert (.operand (.register ra)) (.operand o)) s =
      .next (s.takeFault (.assertionFailed ra (s.reg ra) o (operandValue s o)))) ∧
  RegisterSourceFaults .assert ∧ FetchFault .assert

/-- R126: CMP: with d the wrapped difference of the two values, ZF is 1 exactly on d = 0, SF is bit 31 of d, PF is 1 exactly
when the low byte of d has an even number of one bits, S is kept, PC and AR advance by 5; its faults in order. The flags'
meaning is the spec's design, decision D15, and PF's is its general knowledge G1: "even parity of the low 8 bits of the result".
-/
def Obligations.CmpSetsFlagsFromDifference : Prop :=
  (∀ a b, encode (.cmp (.operand a) (.operand b)) = [4, a.kindWord, a.valueWord, b.kindWord, b.valueWord]) ∧
  (∀ s a b, resolutionFault s a = none → resolutionFault s b = none →
    ∃ t, exec (.cmp (.operand a) (.operand b)) s = .next t ∧
      t.flag .zf = (if operandValue s a = operandValue s b then 1 else 0) ∧
      t.flag .sf = BitVec.ofNat 1 ((operandValue s a - operandValue s b).toNat / 2 ^ 31) ∧
      t.flag .pf = (if ((List.range 8).map fun j => ((operandValue s a - operandValue s b).getLsbD j).toNat).sum % 2 = 0
        then 1 else 0) ∧
      t.flag .s = s.flag .s ∧
      (∀ r, t.reg r = advanced 5 r (s.reg r)) ∧ sameMemory s t ∧ sameControl s t) ∧
  (∀ (s : State) (a b : Arg),
    (a.isLegal = false → exec (.cmp a b) s = .next (s.takeFault (illegalArg 0 a))) ∧
    (a.isLegal = true → b.isLegal = false → exec (.cmp a b) s = .next (s.takeFault (illegalArg 1 b)))) ∧
  (∀ s a b f, resolutionFault s a = some f → exec (.cmp (.operand a) (.operand b)) s = .next (s.takeFault f)) ∧
  (∀ s a b f, resolutionFault s a = none → resolutionFault s b = some f →
    exec (.cmp (.operand a) (.operand b)) s = .next (s.takeFault f)) ∧
  FetchFault .cmp

/-- R126, corner case 2: SF is the sign of the true signed difference when it fits in 32 signed bits, and its opposite on signed
overflow. SF's meaning is the spec's decision D15. -/
def Obligations.CmpSignFlagAndSignedOverflow : Prop :=
  ∀ s a b t, resolutionFault s a = none → resolutionFault s b = none →
    exec (.cmp (.operand a) (.operand b)) s = .next t →
    let d : Int := (operandValue s a).toInt - (operandValue s b).toInt
    if -2 ^ 31 ≤ d ∧ d < 2 ^ 31 then (t.flag .sf = 1 ↔ d < 0) else (t.flag .sf = 1 ↔ 0 ≤ d)

/-! ## Laws over pairs of instructions -/

/-- R117: PUSH r then POP r leaves r and ST as they were and zeroes the slot, for every r but PC and AR; from PC = AR = a, the
pair on PC ends with PC = a + 3, AR = a + 6, and on AR with AR = a + 3, PC = a + 6. The law is the spec's own derivation, over
its decision D14. -/
def Obligations.PushPopPairing : Prop :=
  ∀ (s : State) (r : Reg), Mem.wf s.stack → (s.reg .st).toNat < s.cfg.stackWords →
    ∃ t u, exec (.push (.operand (.register r))) s = .next t ∧ exec (.pop (.operand (.register r))) t = .next u ∧
      u.reg .st = s.reg .st ∧ memRead .stack (s.reg .st) u = .ok 0 ∧
      (r ≠ .pc → r ≠ .ar → u.reg r = s.reg r) ∧
      (r = .pc → s.lockstep → u.reg .pc = s.reg .pc + 3 ∧ u.reg .ar = s.reg .pc + 6) ∧
      (r = .ar → s.lockstep → u.reg .ar = s.reg .pc + 3 ∧ u.reg .pc = s.reg .pc + 6)

/-- R120, R121: a POP of what a CALL pushed yields the call's PC + 3 in any register but PC and AR; POP AR resumes 3 words after
the return address. The case of AR rests on the spec's decision D12. -/
def Obligations.CallThenPopGivesReturnAddress : Prop :=
  ∀ (s : State) (i : Word) (r : Reg), Mem.wf s.stack → s.hasLocation i = true → (s.reg .st).toNat < s.cfg.stackWords →
    ∃ t u, exec (.call (.operand (.symbol i))) s = .next t ∧ exec (.pop (.operand (.register r))) t = .next u ∧
      (r ≠ .st → u.reg .st = s.reg .st) ∧
      (r ≠ .pc → r ≠ .ar → u.reg r = s.reg .pc + 3) ∧
      (r = .ar → u.reg .ar = s.reg .pc + 3 + 3)

/-! ## Operands, symbols, segments -/

/-- R88: the shared resolver, for every kind: its value, or its fault. The value of SYMBOL is the spec's decision D11. -/
def Obligations.ResolveFollowsOperandKind : Prop :=
  ∀ (o : Operand) (s : State),
    resolve o s = match resolutionFault s o with
      | none => .ok (operandValue s o)
      | some f => .error f

/-- R22: the symbol lookup: no entry or an unresolved entry is UnresolvedSymbol, a resolved entry gives its location whatever
its kind. That the kind is not inspected is the spec's decision D11. -/
def Obligations.SymbolLookup : Prop :=
  ∀ (s : State) (i : Word),
    (s.symtab.length ≤ i.toNat → symLoc i s = .error (.unresolvedSymbol i)) ∧
    (∀ e, s.symtab[i.toNat]? = some e → e.resolved = false → symLoc i s = .error (.unresolvedSymbol i)) ∧
    (∀ e, s.symtab[i.toNat]? = some e → e.resolved = true → symLoc i s = .ok e.location)

/-- R22: no step looks at the kind of a symbol. It is the spec's decision D11. -/
def Obligations.StepIgnoresSymbolKinds : Prop :=
  ∀ (s t : State) (k : SymbolEntry → SymbolKind), step s = .next t → step (s.withKinds k) = .next (t.withKinds k)

/-- R85, R86, R87, on the words themselves: a slot of each mask faults exactly where the three static checks do, with their
fault, and otherwise keeps the two words. The faults of illegal operands are the spec's decision D10. -/
def Obligations.SlotsMakeTheStaticChecks : Prop :=
  ∀ (slot : Fin 2) (k v : Word),
    (match staticFault slot 0x1F k v with
      | some f => anySlot slot (Arg.ofWords k v) = .error f
      | none => ∃ o, anySlot slot (Arg.ofWords k v) = .ok o ∧ o.kindWord = k ∧ o.valueWord = v) ∧
    (match staticFault slot 0x01 k v with
      | some f => registerSlot slot (Arg.ofWords k v) = .error f
      | none => ∃ r, registerSlot slot (Arg.ofWords k v) = .ok r ∧ k = 0x01 ∧ r.ordinal = v) ∧
    (match staticFault slot 0x10 k v with
      | some f => symbolSlot slot (Arg.ofWords k v) = .error f
      | none => symbolSlot slot (Arg.ofWords k v) = .ok v ∧ k = 0x10)

/-- R33: every access at or above a segment's capacity raises OutOfBounds with the segment and the address; below it none does. -/
def Obligations.SegmentAccessesAreBoundsChecked : Prop :=
  ∀ (seg : Segment) (a v : Word) (s : State),
    (s.capacity seg ≤ a.toNat →
      memRead seg a s = .error (.outOfBounds seg a) ∧ memWrite seg a v s = .error (.outOfBounds seg a)) ∧
    (a.toNat < s.capacity seg → ∃ w t, memRead seg a s = .ok w ∧ memWrite seg a v s = .ok t)

/-- R31, R41: a read gives the word of the latest write to the same address of the same segment; a write changes no other word. -/
def Obligations.ReadGivesLatestWrite : Prop :=
  ∀ (seg : Segment) (a v : Word) (s t : State), Mem.wf (s.segment seg) → memWrite seg a v s = .ok t →
    memRead seg a t = .ok v ∧ ∀ seg' b, (seg' ≠ seg ∨ b ≠ a) → memRead seg' b t = memRead seg' b s

/-! ## Faults -/

/-- R131: what each fault records: its cause code, the AR of the start of the step, and its words. The codes and words are the
spec's decision D7. -/
def Obligations.FaultRecordWords : Prop :=
  ∀ s : State,
    (∀ addr, (s.takeFault (.outOfBounds .stack addr)).fault = ⟨1, s.reg .ar, 0, addr, 0, 0, 0⟩) ∧
    (∀ addr, (s.takeFault (.outOfBounds .data addr)).fault = ⟨1, s.reg .ar, 1, addr, 0, 0, 0⟩) ∧
    (∀ addr, (s.takeFault (.outOfBounds .code addr)).fault = ⟨1, s.reg .ar, 2, addr, 0, 0, 0⟩) ∧
    (∀ w, (s.takeFault (.illegalOpcode w)).fault = ⟨2, s.reg .ar, w, 0, 0, 0, 0⟩) ∧
    (∀ k v, (s.takeFault (.illegalOperand 0 k v)).fault = ⟨3, s.reg .ar, 0, k, v, 0, 0⟩) ∧
    (∀ k v, (s.takeFault (.illegalOperand 1 k v)).fault = ⟨3, s.reg .ar, 1, k, v, 0, 0⟩) ∧
    (∀ i, (s.takeFault (.unresolvedSymbol i)).fault = ⟨4, s.reg .ar, i, 0, 0, 0, 0⟩) ∧
    (∀ ra x o y, (s.takeFault (.assertionFailed ra x o y)).fault =
      ⟨5, s.reg .ar, ra.ordinal, x, o.kindWord, o.valueWord, y⟩)

/-- R135, R136: a faulting step sets the run state to FAULTED and latches a record whose `at` is the AR of its start, and
changes no register, no flag, no memory word and nothing else. It is the spec's decision D8. -/
def Obligations.FaultsArePrecise : Prop :=
  ∀ s t : State, s.run = .running → step s = .next t → t.run = .faulted →
    (∀ r, t.reg r = s.reg r) ∧ sameFlags s t ∧ sameMemory s t ∧ t.cfg = s.cfg ∧ t.symtab = s.symtab ∧
    t.fault.atAddr = s.reg .ar ∧ 1 ≤ t.fault.cause.toNat ∧ t.fault.cause.toNat ≤ 5

/-- R134: the fault of a step is the earliest of the eight items, read from the raw Code words; a step with none of them
completes without a fault. The order is the spec's decision D8. -/
def Obligations.FaultPriority : Prop :=
  ∀ s : State, s.run = .running → s.cfg.wf →
    (∀ f, stepFault s = some f → step s = .next (s.takeFault f)) ∧
    (stepFault s = none → ∃ t, step s = .next t ∧ t.run ≠ .faulted)

/-- R46: after the static checks, a step faults at the first access of its microsequence that fails, with that access's fault;
if none fails, only ASSERT on unequal words faults. The order is the spec's decision D19. -/
def Obligations.MicrosequenceDecidesTheFault : Prop :=
  ∀ (s : State) (i : Instr), s.run = .running → fetch s = .ok i → i.wf = true →
    (∀ f, firstFault s (microsequence i s) = some f → step s = .next (s.takeFault f)) ∧
    (firstFault s (microsequence i s) = none →
      (∃ t, step s = .next t ∧ t.run ≠ .faulted) ∨
      (∃ ra o, i = .assert (.operand (.register ra)) (.operand o) ∧ s.reg ra ≠ operandValue s o ∧
        step s = .next (s.takeFault (.assertionFailed ra (s.reg ra) o (operandValue s o)))))

/-! ## Whole-machine rules -/

/-- R3, R16, R17, R20, R23, R150: the machine right after reset meets the invariant, and reset restores it from every state that
meets it. The zero Stack and the empty record rest on the spec's decisions D6 and D7 (log entry 6); the default capacities and
the empty image of `State.reset` are the model's, log entries 3 and 4. -/
def Obligations.ResetMeetsWf : Prop := State.reset.wf ∧ ∀ s : State, s.wf → (hostReset s).wf

/-- R3, R8, R17, R33, R136: every step keeps the invariant: legal capacities, the segments' form and bounds, the table's size, a
fault record valid exactly in FAULTED. The canonical form of a segment's content is the model's, log entry 2. -/
def Obligations.StepKeepsWf : Prop := ∀ s t : State, s.wf → step s = .next t → t.wf

/-- R3, R8, R17: the invariant holds after any number of steps from a state that meets it. The canonical form of a segment's
content is the model's, log entry 2. -/
def Obligations.RunKeepsWf : Prop :=
  ∀ (n : Nat) (s t : State), s.wf → core.run n s = .next t → State.wf t

/-- R8, R36, R37: no step changes Code, Data, the symbol table or the capacities. That Data is not written is the spec's
decision D23. -/
def Obligations.StepKeepsImage : Prop :=
  ∀ s t : State, step s = .next t → t.code = s.code ∧ t.data = s.data ∧ t.symtab = s.symtab ∧ t.cfg = s.cfg

/-- R15: CMP is the only instruction that writes a flag, and no instruction writes S. It is the spec's decision D16. -/
def Obligations.OnlyCmpWritesFlags : Prop :=
  ∀ (i : Instr) (s t : State), exec i s = .next t →
    t.flag .s = s.flag .s ∧ (i.opcode ≠ .cmp → sameFlags s t)

/-- R15, R17, R18: no instruction reads a flag or the fault record: a step from other ones gives the same state, with the flags
it writes and the record it latches the same, and every flag and record it does not write as it was before. That CMP alone
writes flags is the spec's decision D16. -/
def Obligations.NoStepReadsFlagsOrRecord : Prop :=
  ∀ (s t : State) (fl : Flags) (fr : FaultRecord), step s = .next t →
    step (s.withUnread fl fr) = .next (t.withUnread (flagsLeft s t fl) (recordLeft s t fr))

/-- R14: a step that starts with PC = AR and does not name PC or AR as its destination ends with PC = AR. The rule is the spec's
own derivation. -/
def Obligations.LockstepIsKept : Prop :=
  ∀ (i : Instr) (s t : State), s.lockstep → destinationOf i ≠ some .pc → destinationOf i ≠ some .ar →
    exec i s = .next t → t.lockstep

/-- R11, R12: a register other than PC, AR and ST changes only as the destination of MOV, ADD, SUB or POP; ST changes only so or
by PUSH, POP and CALL. -/
def Obligations.RegistersChangeOnlyAsNamed : Prop :=
  ∀ (i : Instr) (s t : State) (r : Reg), exec i s = .next t → destinationOf i ≠ some r → r ≠ .pc → r ≠ .ar →
    (r = .st → i.opcode ≠ .push ∧ i.opcode ≠ .pop ∧ i.opcode ≠ .call) → t.reg r = s.reg r

/-- R92: every completed instruction but JMP and CALL adds its size to PC and to AR, each from its own value, where it does not
also name that register as its destination. That each adds from its own value is the spec's decision D12. -/
def Obligations.AdvanceAddsSizeToBoth : Prop :=
  ∀ (i : Instr) (s t : State), s.run = .running → exec i s = .next t → t.run ≠ .faulted →
    i.opcode ≠ .jmp → i.opcode ≠ .call →
    (destinationOf i ≠ some .pc → t.reg .pc = s.reg .pc + BitVec.ofNat 32 i.size) ∧
    (destinationOf i ≠ some .ar → t.reg .ar = s.reg .ar + BitVec.ofNat 32 i.size)

/-- R20, R30, R36, R37: the only word a step can change is Stack[ST] by PUSH and CALL and Stack[ST - 1] by POP. -/
def Obligations.OnlyStackInstructionsWriteMemory : Prop :=
  ∀ (i : Instr) (s t : State) (seg : Segment) (a : Word), Mem.wf s.stack → exec i s = .next t →
    memRead seg a t ≠ memRead seg a s →
    seg = .stack ∧ ((i.opcode = .push ∧ a = s.reg .st) ∨ (i.opcode = .call ∧ a = s.reg .st) ∨
      (i.opcode = .pop ∧ a = s.reg .st - 1))

/-! ## Encoding -/

/-- R50, R52 to R55, R57: decoding the encoding of a well-formed instruction gives it back, at every value of every operand. The
numbers are the spec's decisions D1, D2, D3. -/
def Obligations.DecodeOfEncode : Prop :=
  ∀ (i : Instr) (rest : List Word), i.wf = true → decode (encode i ++ rest) = .ok i

/-- R50, R51, R53: what decodes is the encoding of the instruction it decodes to, word for word: each word sequence has one
meaning, the decoder takes `1 + 2*nargs` words, and no bit of them is dropped. -/
def Obligations.EncodeOfDecode : Prop :=
  ∀ (ws : List Word) (i : Instr), decode ws = .ok i → ∃ rest, ws = encode i ++ rest

/-- R10, R50, R54, R55: words written out from the tables decode to the instructions they stand for, one or more per family. The
numbers are the spec's decisions D1, D2, D3. -/
def Obligations.WordsOfTheSpecDecode : Prop :=
  decode [0] = .ok .none ∧ decode [1] = .ok .halt ∧
  decode [2, 0x10, 0] = .ok (.jmp (.operand (.symbol 0))) ∧
  decode [3, 1, 10, 2, 7] = .ok (.mov (.operand (.register .x0)) (.operand (.integer 7))) ∧
  decode [4, 1, 11, 2, 42] = .ok (.cmp (.operand (.register .x1)) (.operand (.integer 42))) ∧
  decode [5, 4, 0] = .ok (.push (.operand (.value 0))) ∧
  decode [6, 1, 1] = .ok (.pop (.operand (.register .ar))) ∧
  decode [7, 1, 2, 8, 3] = .ok (.add (.operand (.register .st)) (.operand (.address 3))) ∧
  decode [8, 1, 0, 1, 12] = .ok (.sub (.operand (.register .pc)) (.operand (.register .x2))) ∧
  decode [9, 0x10, 1] = .ok (.call (.operand (.symbol 1))) ∧
  decode [10, 1, 9, 0x10, 5] = .ok (.assert (.operand (.register .cb)) (.operand (.symbol 5)))

/-- R10, R54, R55, R58: the numbering tables, and the words that name nothing. The numbers are the spec's decisions D1, D2, D3.
-/
def Obligations.NumberingTables : Prop :=
  Opcode.all.map Opcode.number = [0, 1, 2, 3, 4, 5, 6, 7, 8, 9, 10] ∧
  Reg.all.map Reg.ordinal = [0, 1, 2, 3, 4, 5, 6, 7, 8, 9, 10, 11, 12] ∧
  Kind.all.map Kind.word = [0x01, 0x02, 0x04, 0x08, 0x10] ∧
  (∀ w op, Opcode.ofWord w = some op ↔ w = op.number) ∧ (∀ w : Word, 11 ≤ w.toNat ↔ Opcode.ofWord w = none) ∧
  (∀ v r, Reg.ofOrdinal v = some r ↔ v = r.ordinal) ∧ (∀ v : Word, 13 ≤ v.toNat ↔ Reg.ofOrdinal v = none) ∧
  (∀ w k, Kind.ofWord w = some k ↔ w = k.word)

/-! ## Reset and the host -/

/-- R23, R150: after reset every register, flag, fault-record field and Stack word is 0 and the run state is RUNNING; Code,
Data, the symbol table and the capacities are as they were. The zeros of SB to CB, the flags and the Stack are the spec's
decision D6. -/
def Obligations.ResetValues : Prop :=
  ∀ s : State,
    (∀ r, (hostReset s).reg r = 0) ∧ (∀ f, (hostReset s).flag f = 0) ∧ (hostReset s).run = .running ∧
    (hostReset s).fault = ⟨0, 0, 0, 0, 0, 0, 0⟩ ∧
    (∀ a : Word, a.toNat < s.cfg.stackWords → memRead .stack a (hostReset s) = .ok 0) ∧
    (∀ a, memRead .code a (hostReset s) = memRead .code a s) ∧ (∀ a, memRead .data a (hostReset s) = memRead .data a s) ∧
    (hostReset s).symtab = s.symtab ∧ (hostReset s).cfg = s.cfg

/-- R151: the first step after reset runs the instruction whose words stand at Code address 0. The rule is the spec's own
derivation. -/
def Obligations.FirstStepFetchesAtZero : Prop :=
  ∀ (s : State) (ws : List Word) (i : Instr),
    (∀ j w, ws[j]? = some w → memRead .code (BitVec.ofNat 32 j) s = .ok w) → decode ws = .ok i →
    step (hostReset s) = exec i (hostReset s)

/-- R39, R100: running into a Code word nobody wrote, which reads as 0, halts the engine one word further. The rule is the
spec's own derivation, over its decision D13. -/
def Obligations.UnwrittenCodeHalts : Prop :=
  ∀ s : State, s.run = .running → (s.reg .ar).toNat < s.cfg.codeWords →
    (∀ c ∈ s.code, c.1 ≠ (s.reg .ar).toNat) →
    ∃ t, step s = .next t ∧ t.run = .halted ∧ t.reg .ar = s.reg .ar + 1 ∧ t.reg .pc = s.reg .pc + 1

/-- R153: after the load contract the engine's Code, Data and symbol table are the image, the Stack is all 0, and the engine is
as reset leaves it, with PC = AR = 0 and RUNNING. The zeros of SB to CB and of the Stack are the spec's decision D6 (log entry
6); that the load stands for how a program comes to run is DEDUCED, log entry 5. -/
def Obligations.LoadContract : Prop :=
  ∀ (im : Image) (s : State),
    (∀ a : Word, a.toNat < s.cfg.codeWords → memRead .code a (hostLoad im s) = .ok (Mem.read im.code a.toNat)) ∧
    (∀ a : Word, a.toNat < s.cfg.dataWords → memRead .data a (hostLoad im s) = .ok (Mem.read im.data a.toNat)) ∧
    (∀ a : Word, a.toNat < s.cfg.stackWords → memRead .stack a (hostLoad im s) = .ok 0) ∧
    (hostLoad im s).symtab = im.symtab ∧ (∀ r, (hostLoad im s).reg r = 0) ∧ (hostLoad im s).run = .running ∧
    hostReset (hostLoad im s) = hostLoad im s

/-- R156: the host reads nothing but the status while RUNNING, and everything in HALTED and FAULTED. -/
def Obligations.ReadOutOnlyWhenEnded : Prop :=
  ∀ s : State, readStatus s = (s.run, s.fault) ∧ (readOut s = none ↔ s.run = .running) ∧
    (s.run ≠ .running → readOut s = some ⟨s.regs, s.flags, s.run, s.fault, s.stack, s.data, s.code⟩)

/-! ## The optional encoder -/

/-- R67: ArgumentCountMismatch fires exactly when the token count minus one differs from `nargs`. -/
def Obligations.ArgumentCountMismatchFires : Prop :=
  ∀ (tab : SymbolTable) (m : Token) (args : List Token) (op : Opcode), mnemonicNamed m = some op →
    (encodeLine tab (m :: args) = .error .argumentCountMismatch ↔ args.length ≠ op.nargs)

/-- R65, R69, R70: the classification of an argument token, by the precedence of R65, and the operand each class is emitted as.
That ADDRESS is emitted as the Data offset is the spec's decision D17 (R69), that a literal out of range is an error its
decision D28 (R70); that `[name]` is VALUE for a symbol named like a register is the model's choice, log entry 15. -/
def Obligations.ArgumentClassification : Prop :=
  (∀ (tab : SymbolTable) (t : Token),
    (∀ r, registerNamed t = some r → classify tab t = .ok (.register r)) ∧
    (∀ name i e, registerNamed t = none → t = '[' :: (name ++ [']']) → lookupName tab name = some (i, e) →
      classify tab t = .ok (.value i)) ∧
    (registerNamed t = none → (∀ name, bracketed t = some name → lookupName tab name = none) →
      (∀ i e, lookupName tab t = some (i, e) →
        classify tab t = if e.kind = .label then .ok (.symbol i) else .ok (.address e.location)) ∧
      (∀ n, lookupName tab t = none → literalValue t = some n → classify tab t = .ok (.integer n)) ∧
      (lookupName tab t = none → literalValue t = none → classify tab t = .error (.unresolvedSymbol t)))) ∧
  (∀ r, (Argument.register r).operand = .ok (.register r)) ∧
  (∀ i, (Argument.value i).operand = .ok (.value (BitVec.ofNat 32 i))) ∧
  (∀ d, (Argument.address d).operand = .ok (.address d)) ∧
  (∀ i, (Argument.symbol i).operand = .ok (.symbol (BitVec.ofNat 32 i))) ∧
  (∀ n, (Argument.integer n).operand =
    if n < 2 ^ 32 then .ok (.integer (BitVec.ofNat 32 n)) else .error .literalOutOfRange)

/-- R66 to R70: the failures of a line in the order of R66: the mnemonic, the argument count, the first argument that classifies
as nothing, a kind that is not allowed, a literal out of range; a line with none of them is emitted. The kind check is the
spec's decision D20 (R68), the range check its decision D28 (R70). -/
def Obligations.EncoderFailsInOrder : Prop :=
  ∀ (tab : SymbolTable) (m : Token) (args : List Token),
    (mnemonicNamed m = none → encodeLine tab (m :: args) = .error .unknownMnemonic) ∧
    (∀ op, mnemonicNamed m = some op → args.length ≠ op.nargs →
      encodeLine tab (m :: args) = .error .argumentCountMismatch) ∧
    (∀ op pre t post e, mnemonicNamed m = some op → args.length = op.nargs → args = pre ++ t :: post →
      (∀ u ∈ pre, ∃ a, classify tab u = .ok a) → classify tab t = .error e → encodeLine tab (m :: args) = .error e) ∧
    (∀ op as, mnemonicNamed m = some op → args.length = op.nargs → classifyAll tab args = .ok as →
      (kindsAllowed (allowedKinds op) as = false → encodeLine tab (m :: args) = .error .operandTypeMismatch) ∧
      (kindsAllowed (allowedKinds op) as = true →
        (∀ n, .integer n ∈ as → 2 ^ 32 ≤ n → encodeLine tab (m :: args) = .error .literalOutOfRange) ∧
        ((∀ n, .integer n ∈ as → n < 2 ^ 32) →
          ∃ os, operandsOf as = .ok os ∧ encodeLine tab (m :: args) = .ok (emit op os))))

/-- R66, R69: the words of an accepted line are the encoding of one instruction of its mnemonic, with every argument legal, and
they decode to it. -/
def Obligations.EncodedLineDecodes : Prop :=
  ∀ (tab : SymbolTable) (m : Token) (args : List Token) (ws : List Word), encodeLine tab (m :: args) = .ok ws →
    ∃ i, decode ws = .ok i ∧ encode i = ws ∧ mnemonicNamed m = some i.opcode ∧ i.args.length = args.length ∧
      ∀ a ∈ i.args, a.isLegal = true

/-- R56, R68: an accepted line of JMP, CALL or POP has an operand the engine accepts too. -/
def Obligations.EncodedTransfersAndPopsAreWellFormed : Prop :=
  ∀ (tab : SymbolTable) (line : List Token) (ws : List Word) (i : Instr), encodeLine tab line = .ok ws →
    decode ws = .ok i → i.opcode = .jmp ∨ i.opcode = .call ∨ i.opcode = .pop → i.wf = true

/-- R154 (a), (e), (f): in the words of an accepted line every SYMBOL and VALUE index is below NSYM, SYMBOL names a label, and
ADDRESS is the location of a scalar. The rule is the spec's own derivation. -/
def Obligations.EncodedOperandsNameSymbols : Prop :=
  ∀ (tab : SymbolTable) (line : List Token) (ws : List Word) (i : Instr) (o : Operand), tab.length < 2 ^ 32 →
    encodeLine tab line = .ok ws → decode ws = .ok i → .operand o ∈ i.args →
    match o with
    | .register _ => True
    | .integer _ => True
    | .value j => j.toNat < tab.length
    | .symbol j => ∃ n, tab[j.toNat]? = some n ∧ n.entry.kind = .label
    | .address d => ∃ n ∈ tab, n.entry.kind ≠ .label ∧ n.entry.location = d

/-- R71, R72, R153: an assembled image, loaded into any machine of the same legal capacities, meets the invariant. The canonical
form of a segment's content is the model's, log entry 2; the limit of symbols is log entry 12; the zero Stack and the empty
record of the load's reset are the spec's decisions D6 and D7, log entry 6. -/
def Obligations.AssembledImageLoadsWf : Prop :=
  ∀ (source : List Block) (im : Image) (s : State), s.cfg.wf → assemble s.cfg source = .ok im → (hostLoad im s).wf

/-- R71, R72, R154 (b), (c): in an assembled image every symbol is resolved, every label to an address in Code and every scalar
to one in Data. The rule is the spec's own derivation; that a label of an empty block has no address when Code is full, where
R71 and R154 (b) disagree, is the model's choice, log entry 17; one declaration per name is log entry 9. -/
def Obligations.AssembledSymbolsAreResolved : Prop :=
  ∀ (cfg : Config) (source : List Block) (im : Image), cfg.wf → assemble cfg source = .ok im →
    ∀ e ∈ im.symtab, e.resolved = true ∧
      (if e.kind = .label then e.location.toNat < cfg.codeWords else e.location.toNat < cfg.dataWords)

/-- R71, R72, R154 (b): in an assembled image a label has the index R72 counts, is resolved, and its location is the Code
address where its block starts, the sum of the sizes of the instruction lines before it; the word there is the opcode word of
the next instruction line of the source, or the unwritten word after the last one. The rule is the spec's own derivation; the
placement by a cursor is its decision D20; that the address is below CODE_WORDS for an empty block too is the model's choice,
log entry 17; one declaration per name is log entry 9. -/
def Obligations.AssembledLabelsStandAtTheirBlocks : Prop :=
  ∀ (cfg : Config) (source : List Block) (im : Image) (pre : List BlockKind) (name : Token) (body : List Token)
    (post : List BlockKind), cfg.wf → assemble cfg source = .ok im →
    classifyBlocks source = .ok (pre ++ .label name body :: post) →
    let start := linesSize (pre.flatMap BlockKind.instructionLines)
    start < cfg.codeWords ∧
    im.symtab[(pre.map BlockKind.symbolCount).sum]? =
      some { kind := .label, resolved := true, location := BitVec.ofNat 32 start } ∧
    match body ++ post.flatMap BlockKind.instructionLines with
    | line :: _ => ∃ op, lineOpcode line = some op ∧ Mem.read im.code start = op.number
    | [] => Mem.read im.code start = 0
end

