-- ==== Sys2Proof/Laws/Decode.lean ====
section
/-! SUPPORT. The small lemmas of the numbering tables, the argument words and the decoder. -/

namespace Sys2Proof

/-! ## The tables, both ways -/

theorem Reg.ofOrdinal_ordinal (r : Reg) : Reg.ofOrdinal r.ordinal = some r := by cases r <;> decide

theorem Reg.ordinal_of_ofOrdinal {v : Word} {r : Reg} (h : Reg.ofOrdinal v = some r) : r.ordinal = v := by
  have := List.find?_some h
  simpa using this

theorem Kind.ofWord_word (k : Kind) : Kind.ofWord k.word = some k := by cases k <;> decide

theorem Kind.word_of_ofWord {w : Word} {k : Kind} (h : Kind.ofWord w = some k) : k.word = w := by
  have := List.find?_some h
  simpa using this

theorem Opcode.ofWord_number (op : Opcode) : Opcode.ofWord op.number = some op := by cases op <;> decide

theorem Opcode.number_of_ofWord {w : Word} {op : Opcode} (h : Opcode.ofWord w = some op) : op.number = w := by
  have := List.find?_some h
  simpa using this

/-- Two words give the legal operand whose words they are, and no other (R55, R57). -/
theorem Arg.ofWords_eq_operand {k v : Word} {o : Operand} :
    Arg.ofWords k v = .operand o ↔ k = o.kindWord ∧ v = o.valueWord := by
  constructor
  · intro h
    unfold Arg.ofWords at h
    split at h
    · next hk =>
      split at h
      · next r hr =>
        cases h
        exact ⟨(Kind.word_of_ofWord hk).symm, (Reg.ordinal_of_ofOrdinal hr).symm⟩
      · cases h
    all_goals first
      | (next hk => cases h; exact ⟨(Kind.word_of_ofWord hk).symm, rfl⟩)
      | cases h
  · rintro ⟨rfl, rfl⟩
    cases o with
    | register r =>
      simp only [Operand.kindWord, Operand.kind, Operand.valueWord, Arg.ofWords, Kind.ofWord_word, Reg.ofOrdinal_ordinal]
    | _ => simp only [Operand.kindWord, Operand.kind, Operand.valueWord, Arg.ofWords, Kind.ofWord_word]

/-- An illegal argument keeps its two words. -/
theorem Arg.ofWords_eq_illegal {k v k' v' : Word} (h : Arg.ofWords k v = .illegal k' v') : k' = k ∧ v' = v := by
  unfold Arg.ofWords at h
  repeat' split at h
  all_goals first
    | (cases h; exact ⟨rfl, rfl⟩)
    | cases h

/-- The words of a decoded argument are the words it was decoded from. -/
theorem Arg.words_ofWords (k v : Word) : (Arg.ofWords k v).words = [k, v] := by
  cases h : Arg.ofWords k v with
  | operand o => obtain ⟨rfl, rfl⟩ := Arg.ofWords_eq_operand.1 h; rfl
  | illegal k' v' => obtain ⟨rfl, rfl⟩ := Arg.ofWords_eq_illegal h; rfl

/-! ## Except, one step at a time -/

@[simp] theorem ok_bind {ε α β : Type} (a : α) (f : α → Except ε β) : ((Except.ok a : Except ε α) >>= f) = f a := rfl
@[simp] theorem error_bind {ε α β : Type} (e : ε) (f : α → Except ε β) :
    ((Except.error e : Except ε α) >>= f) = .error e := rfl
@[simp] theorem pure_eq_ok {ε α : Type} (a : α) : (pure a : Except ε α) = .ok a := rfl

theorem bind_eq_ok {ε α β : Type} {x : Except ε α} {f : α → Except ε β} {b : β} (h : (x >>= f) = .ok b) :
    ∃ a, x = .ok a ∧ f a = .ok b := by
  cases x with
  | ok a => exact ⟨a, rfl, h⟩
  | error e => cases h

theorem bind_eq_error {ε α β : Type} {x : Except ε α} {f : α → Except ε β} {e : ε} (h : (x >>= f) = .error e) :
    x = .error e ∨ ∃ a, x = .ok a ∧ f a = .error e := by
  cases x with
  | ok a => exact .inr ⟨a, rfl, h⟩
  | error e' => cases h; exact .inl rfl

end Sys2Proof
end

