-- ==== Sys2Proof/Laws/State.lean ====
section
/-! SUPPORT. The small lemmas of the state's updates: what each leaves of every field, so that no proof unfolds one. -/

namespace Sys2Proof.Machine

/-! ## setReg -/

@[simp] theorem State.setReg_cfg (s : State) (r : Reg) (v : Word) : (s.setReg r v).cfg = s.cfg := by cases r <;> rfl
@[simp] theorem State.setReg_flags (s : State) (r : Reg) (v : Word) : (s.setReg r v).flags = s.flags := by cases r <;> rfl
@[simp] theorem State.setReg_run (s : State) (r : Reg) (v : Word) : (s.setReg r v).run = s.run := by cases r <;> rfl
@[simp] theorem State.setReg_fault (s : State) (r : Reg) (v : Word) : (s.setReg r v).fault = s.fault := by cases r <;> rfl
@[simp] theorem State.setReg_stack (s : State) (r : Reg) (v : Word) : (s.setReg r v).stack = s.stack := by cases r <;> rfl
@[simp] theorem State.setReg_data (s : State) (r : Reg) (v : Word) : (s.setReg r v).data = s.data := by cases r <;> rfl
@[simp] theorem State.setReg_code (s : State) (r : Reg) (v : Word) : (s.setReg r v).code = s.code := by cases r <;> rfl
@[simp] theorem State.setReg_symtab (s : State) (r : Reg) (v : Word) : (s.setReg r v).symtab = s.symtab := by cases r <;> rfl

/-- Writing one register changes no other (R10, R14). -/
theorem State.reg_setReg (s : State) (r q : Reg) (v : Word) : (s.setReg r v).reg q = if q = r then v else s.reg q := by
  cases r <;> cases q <;> rfl

@[simp] theorem State.reg_setReg_self (s : State) (r : Reg) (v : Word) : (s.setReg r v).reg r = v := by cases r <;> rfl

theorem State.reg_setReg_of_ne (s : State) {r q : Reg} (h : q ≠ r) (v : Word) : (s.setReg r v).reg q = s.reg q := by
  simp [State.reg_setReg, h]

@[simp] theorem State.setReg_segment (s : State) (r : Reg) (v : Word) (seg : Segment) :
    (s.setReg r v).segment seg = s.segment seg := by cases seg <;> simp [State.segment]
@[simp] theorem State.setReg_capacity (s : State) (r : Reg) (v : Word) (seg : Segment) :
    (s.setReg r v).capacity seg = s.capacity seg := by cases seg <;> simp [State.capacity]
@[simp] theorem State.setReg_flag (s : State) (r : Reg) (v : Word) (f : Flag) : (s.setReg r v).flag f = s.flag f := by
  cases f <;> simp [State.flag]

/-! ## setFlag and compareFlags -/

@[simp] theorem State.setFlag_cfg (s : State) (f : Flag) (b : Nat) : (s.setFlag f b).cfg = s.cfg := by cases f <;> rfl
@[simp] theorem State.setFlag_regs (s : State) (f : Flag) (b : Nat) : (s.setFlag f b).regs = s.regs := by cases f <;> rfl
@[simp] theorem State.setFlag_run (s : State) (f : Flag) (b : Nat) : (s.setFlag f b).run = s.run := by cases f <;> rfl
@[simp] theorem State.setFlag_fault (s : State) (f : Flag) (b : Nat) : (s.setFlag f b).fault = s.fault := by cases f <;> rfl
@[simp] theorem State.setFlag_stack (s : State) (f : Flag) (b : Nat) : (s.setFlag f b).stack = s.stack := by cases f <;> rfl
@[simp] theorem State.setFlag_data (s : State) (f : Flag) (b : Nat) : (s.setFlag f b).data = s.data := by cases f <;> rfl
@[simp] theorem State.setFlag_code (s : State) (f : Flag) (b : Nat) : (s.setFlag f b).code = s.code := by cases f <;> rfl
@[simp] theorem State.setFlag_symtab (s : State) (f : Flag) (b : Nat) : (s.setFlag f b).symtab = s.symtab := by cases f <;> rfl
@[simp] theorem State.setFlag_reg (s : State) (f : Flag) (b : Nat) (r : Reg) : (s.setFlag f b).reg r = s.reg r := by
  cases r <;> simp [State.reg]

/-- A flag takes the written number modulo 2, and no other flag changes (R5, R15). -/
theorem State.flag_setFlag (s : State) (f g : Flag) (b : Nat) :
    (s.setFlag f b).flag g = if g = f then BitVec.ofNat 1 b else s.flag g := by cases f <;> cases g <;> rfl

@[simp] theorem State.compareFlags_cfg (s : State) (d : Word) : (s.compareFlags d).cfg = s.cfg := rfl
@[simp] theorem State.compareFlags_regs (s : State) (d : Word) : (s.compareFlags d).regs = s.regs := rfl
@[simp] theorem State.compareFlags_run (s : State) (d : Word) : (s.compareFlags d).run = s.run := rfl
@[simp] theorem State.compareFlags_fault (s : State) (d : Word) : (s.compareFlags d).fault = s.fault := rfl
@[simp] theorem State.compareFlags_stack (s : State) (d : Word) : (s.compareFlags d).stack = s.stack := rfl
@[simp] theorem State.compareFlags_data (s : State) (d : Word) : (s.compareFlags d).data = s.data := rfl
@[simp] theorem State.compareFlags_code (s : State) (d : Word) : (s.compareFlags d).code = s.code := rfl
@[simp] theorem State.compareFlags_symtab (s : State) (d : Word) : (s.compareFlags d).symtab = s.symtab := rfl
@[simp] theorem State.compareFlags_reg (s : State) (d : Word) (r : Reg) : (s.compareFlags d).reg r = s.reg r := by
  cases r <;> rfl

/-! ## setSegment -/

@[simp] theorem State.setSegment_cfg (s : State) (seg : Segment) (m : Mem) : (s.setSegment seg m).cfg = s.cfg := by
  cases seg <;> rfl
@[simp] theorem State.setSegment_regs (s : State) (seg : Segment) (m : Mem) : (s.setSegment seg m).regs = s.regs := by
  cases seg <;> rfl
@[simp] theorem State.setSegment_flags (s : State) (seg : Segment) (m : Mem) : (s.setSegment seg m).flags = s.flags := by
  cases seg <;> rfl
@[simp] theorem State.setSegment_run (s : State) (seg : Segment) (m : Mem) : (s.setSegment seg m).run = s.run := by
  cases seg <;> rfl
@[simp] theorem State.setSegment_fault (s : State) (seg : Segment) (m : Mem) : (s.setSegment seg m).fault = s.fault := by
  cases seg <;> rfl
@[simp] theorem State.setSegment_symtab (s : State) (seg : Segment) (m : Mem) : (s.setSegment seg m).symtab = s.symtab := by
  cases seg <;> rfl
@[simp] theorem State.setSegment_reg (s : State) (seg : Segment) (m : Mem) (r : Reg) :
    (s.setSegment seg m).reg r = s.reg r := by cases r <;> simp [State.reg]
@[simp] theorem State.setSegment_flag (s : State) (seg : Segment) (m : Mem) (f : Flag) :
    (s.setSegment seg m).flag f = s.flag f := by cases f <;> simp [State.flag]
@[simp] theorem State.setSegment_capacity (s : State) (seg q : Segment) (m : Mem) :
    (s.setSegment seg m).capacity q = s.capacity q := by cases q <;> simp [State.capacity]

/-- Writing one segment changes no other (R30). -/
theorem State.segment_setSegment (s : State) (seg q : Segment) (m : Mem) :
    (s.setSegment seg m).segment q = if q = seg then m else s.segment q := by cases seg <;> cases q <;> rfl

/-! ## takeFault -/

@[simp] theorem State.takeFault_cfg (s : State) (f : EngineFault) : (s.takeFault f).cfg = s.cfg := rfl
@[simp] theorem State.takeFault_regs (s : State) (f : EngineFault) : (s.takeFault f).regs = s.regs := rfl
@[simp] theorem State.takeFault_flags (s : State) (f : EngineFault) : (s.takeFault f).flags = s.flags := rfl
@[simp] theorem State.takeFault_run (s : State) (f : EngineFault) : (s.takeFault f).run = .faulted := rfl
@[simp] theorem State.takeFault_fault (s : State) (f : EngineFault) : (s.takeFault f).fault = f.record (s.reg .ar) := rfl
@[simp] theorem State.takeFault_stack (s : State) (f : EngineFault) : (s.takeFault f).stack = s.stack := rfl
@[simp] theorem State.takeFault_data (s : State) (f : EngineFault) : (s.takeFault f).data = s.data := rfl
@[simp] theorem State.takeFault_code (s : State) (f : EngineFault) : (s.takeFault f).code = s.code := rfl
@[simp] theorem State.takeFault_symtab (s : State) (f : EngineFault) : (s.takeFault f).symtab = s.symtab := rfl
@[simp] theorem State.takeFault_reg (s : State) (f : EngineFault) (r : Reg) : (s.takeFault f).reg r = s.reg r := by
  cases r <;> rfl

/-! ## advance and transfer -/

@[simp] theorem State.advance_cfg (s : State) (op : Opcode) : (s.advance op).cfg = s.cfg := rfl
@[simp] theorem State.advance_flags (s : State) (op : Opcode) : (s.advance op).flags = s.flags := rfl
@[simp] theorem State.advance_run (s : State) (op : Opcode) : (s.advance op).run = s.run := rfl
@[simp] theorem State.advance_fault (s : State) (op : Opcode) : (s.advance op).fault = s.fault := rfl
@[simp] theorem State.advance_stack (s : State) (op : Opcode) : (s.advance op).stack = s.stack := rfl
@[simp] theorem State.advance_data (s : State) (op : Opcode) : (s.advance op).data = s.data := rfl
@[simp] theorem State.advance_code (s : State) (op : Opcode) : (s.advance op).code = s.code := rfl
@[simp] theorem State.advance_symtab (s : State) (op : Opcode) : (s.advance op).symtab = s.symtab := rfl

/-- The advance adds the size to PC and to AR, each from its own value, and keeps every other register (R92). -/
theorem State.reg_advance (s : State) (op : Opcode) (r : Reg) :
    (s.advance op).reg r = if r = .pc ∨ r = .ar then s.reg r + BitVec.ofNat 32 op.size else s.reg r := by cases r <;> rfl

@[simp] theorem State.transfer_cfg (s : State) (t : Word) : (s.transfer t).cfg = s.cfg := rfl
@[simp] theorem State.transfer_flags (s : State) (t : Word) : (s.transfer t).flags = s.flags := rfl
@[simp] theorem State.transfer_run (s : State) (t : Word) : (s.transfer t).run = s.run := rfl
@[simp] theorem State.transfer_fault (s : State) (t : Word) : (s.transfer t).fault = s.fault := rfl
@[simp] theorem State.transfer_stack (s : State) (t : Word) : (s.transfer t).stack = s.stack := rfl
@[simp] theorem State.transfer_data (s : State) (t : Word) : (s.transfer t).data = s.data := rfl
@[simp] theorem State.transfer_code (s : State) (t : Word) : (s.transfer t).code = s.code := rfl
@[simp] theorem State.transfer_symtab (s : State) (t : Word) : (s.transfer t).symtab = s.symtab := rfl

/-- A transfer sets PC and AR and keeps every other register (R105). -/
theorem State.reg_transfer (s : State) (t : Word) (r : Reg) :
    (s.transfer t).reg r = if r = .pc ∨ r = .ar then t else s.reg r := by cases r <;> rfl

end Sys2Proof.Machine
end

