-- ==== Sys2Proof/Laws/Memory.lean ====
section
/-! SUPPORT. The laws of a segment's content: read after write, and the canonical form every write keeps. -/

namespace Sys2Proof.Machine

theorem Mem.read_of_lt {m : Mem} {a : Nat} (h : ∀ c ∈ m, a < c.1) : Mem.read m a = Mem.blank := by
  induction m with
  | nil => rfl
  | cons c m ih =>
    have h1 := h c (by simp)
    simp only [Mem.read]
    rw [if_neg (by omega), ih fun d hd => h d (by simp [hd])]

theorem Mem.read_cell (a b : Nat) (v : Word) (m : Mem) (hm : ∀ c ∈ m, a < c.1) :
    Mem.read (Mem.cell a v m) b = if b = a then v else Mem.read m b := by
  unfold Mem.cell
  by_cases hv : v = Mem.blank
  · rw [if_pos hv]
    split
    · next h => subst h; rw [Mem.read_of_lt hm, hv]
    · rfl
  · rw [if_neg hv]; rfl

/-- Reading after a write: the written address gives the written word, every other address what it gave before. -/
theorem Mem.read_write {m : Mem} (h : m.Pairwise fun c d => c.1 < d.1) (a b : Nat) (v : Word) :
    Mem.read (Mem.write m a v) b = if b = a then v else Mem.read m b := by
  induction m with
  | nil => exact Mem.read_cell a b v [] (by simp)
  | cons c m ih =>
    obtain ⟨hc, hm⟩ := List.pairwise_cons.1 h
    obtain ⟨k, w⟩ := c
    simp only [Mem.write]
    by_cases h1 : a < k
    · rw [if_pos h1]
      apply Mem.read_cell
      rintro d hd
      rcases List.mem_cons.1 hd with rfl | hd
      · exact h1
      · exact lt_trans h1 (hc d hd)
    · rw [if_neg h1]
      by_cases h2 : a = k
      · subst h2
        rw [if_pos rfl, Mem.read_cell _ _ _ _ hc]
        simp only [Mem.read]
        split <;> rfl
      · rw [if_neg h2]
        simp only [Mem.read, ih hm]
        by_cases h3 : b = k
        · rw [if_pos h3, if_pos h3, if_neg (by omega)]
        · rw [if_neg h3, if_neg h3]

theorem Mem.mem_write {m : Mem} {a : Nat} {v : Word} {c : Nat × Word} (h : c ∈ Mem.write m a v) :
    (c = (a, v) ∧ v ≠ Mem.blank) ∨ c ∈ m := by
  have cell : ∀ m' : Mem, c ∈ Mem.cell a v m' → (c = (a, v) ∧ v ≠ Mem.blank) ∨ c ∈ m' := by
    intro m' hc
    unfold Mem.cell at hc
    split at hc
    · exact .inr hc
    · next hv => rcases List.mem_cons.1 hc with rfl | hc
                 · exact .inl ⟨rfl, hv⟩
                 · exact .inr hc
  induction m with
  | nil => exact cell [] h
  | cons d m ih =>
    simp only [Mem.write] at h
    split at h
    · exact cell _ h
    · split at h
      · rcases cell _ h with h | h
        · exact .inl h
        · exact .inr (List.mem_cons_of_mem _ h)
      · rcases List.mem_cons.1 h with rfl | h
        · exact .inr (by simp)
        · rcases ih h with h | h
          · exact .inl h
          · exact .inr (List.mem_cons_of_mem _ h)

/-- A write keeps the canonical form. -/
theorem Mem.write_wf {m : Mem} (h : Mem.wf m) (a : Nat) (v : Word) : Mem.wf (Mem.write m a v) := by
  refine ⟨?_, fun c hc => ?_⟩
  · have cell : ∀ m' : Mem, m'.Pairwise (fun c d => c.1 < d.1) → (∀ c ∈ m', a < c.1) →
        (Mem.cell a v m').Pairwise fun c d => c.1 < d.1 := by
      intro m' hm ha
      unfold Mem.cell
      split
      · exact hm
      · exact List.pairwise_cons.2 ⟨ha, hm⟩
    obtain ⟨h, -⟩ := h
    induction m with
    | nil => exact cell [] (by simp) (by simp)
    | cons d m ih =>
      obtain ⟨hd, hm⟩ := List.pairwise_cons.1 h
      simp only [Mem.write]
      split
      · next h1 =>
        refine cell _ h fun c hc => ?_
        rcases List.mem_cons.1 hc with rfl | hc
        · exact h1
        · exact lt_trans h1 (hd c hc)
      · split
        · next h2 => exact cell _ hm fun c hc => h2 ▸ hd c hc
        · next h1 h2 =>
          refine List.pairwise_cons.2 ⟨fun c hc => ?_, ih hm⟩
          rcases Mem.mem_write hc with ⟨rfl, -⟩ | hc
          · show d.1 < a
            omega
          · exact hd c hc
  · rcases Mem.mem_write hc with ⟨rfl, hv⟩ | hc
    · exact hv
    · exact h.2 c hc

/-- A write below the capacity keeps every listed word below it. -/
theorem Mem.write_within {m : Mem} {n a : Nat} (h : Mem.within n m) (ha : a < n) (v : Word) :
    Mem.within n (Mem.write m a v) := by
  intro c hc
  rcases Mem.mem_write hc with ⟨rfl, -⟩ | hc
  · exact ha
  · exact h c hc

/-- Consecutive writes keep the canonical form. -/
theorem Mem.writeWords_wf {m : Mem} (h : Mem.wf m) (a : Nat) (ws : List Word) : Mem.wf (Mem.writeWords m a ws) := by
  induction ws generalizing m a with
  | nil => exact h
  | cons w ws ih => exact ih (Mem.write_wf h a w) (a + 1)

/-- Consecutive writes below the capacity keep every listed word below it. -/
theorem Mem.writeWords_within {m : Mem} {n a : Nat} (h : Mem.within n m) (ws : List Word) (ha : a + ws.length ≤ n) :
    Mem.within n (Mem.writeWords m a ws) := by
  induction ws generalizing m a with
  | nil => exact h
  | cons w ws ih =>
    simp only [List.length_cons] at ha
    exact ih (Mem.write_within h (by omega) w) (by omega)

/-- Reading after consecutive writes: the words written, and everywhere else what was there before. -/
theorem Mem.read_writeWords {m : Mem} (h : Mem.wf m) (a b : Nat) (ws : List Word) :
    Mem.read (Mem.writeWords m a ws) b = if a ≤ b then (ws[b - a]?).getD (Mem.read m b) else Mem.read m b := by
  induction ws generalizing m a with
  | nil => simp [Mem.writeWords]
  | cons w ws ih =>
    simp only [Mem.writeWords]
    rw [ih (Mem.write_wf h a w), Mem.read_write h.1]
    rcases Nat.lt_trichotomy b a with hb | rfl | hb
    · simp [show ¬ a + 1 ≤ b by omega, show ¬ a ≤ b by omega, show b ≠ a by omega]
    · simp
    · simp only [show a + 1 ≤ b by omega, show a ≤ b by omega, show b ≠ a by omega, if_true, if_false,
        show b - a = (b - (a + 1)) + 1 by omega, List.getElem?_cons_succ]

theorem Mem.writeWords_append (m : Mem) (a : Nat) (ws vs : List Word) :
    Mem.writeWords m a (ws ++ vs) = Mem.writeWords (Mem.writeWords m a ws) (a + ws.length) vs := by
  induction ws generalizing m a with
  | nil => rfl
  | cons w ws ih =>
    simp only [List.cons_append, Mem.writeWords, List.length_cons, ih]
    rw [show a + 1 + ws.length = a + (ws.length + 1) by omega]

/-- Two canonical contents that read alike everywhere are the same data. -/
theorem Mem.ext {m m' : Mem} (h : Mem.wf m) (h' : Mem.wf m') (hr : ∀ a, Mem.read m a = Mem.read m' a) : m = m' := by
  have tail : ∀ {c : Nat × Word} {l : Mem}, Mem.wf (c :: l) → Mem.wf l ∧ (∀ d ∈ l, c.1 < d.1) ∧ c.2 ≠ Mem.blank :=
    fun {c l} hw => ⟨⟨(List.pairwise_cons.1 hw.1).2, fun d hd => hw.2 d (by simp [hd])⟩,
      (List.pairwise_cons.1 hw.1).1, hw.2 c (by simp)⟩
  induction m generalizing m' with
  | nil =>
    cases m' with
    | nil => rfl
    | cons d m' => exact absurd ((hr d.1).symm.trans rfl) (by simpa [Mem.read] using (tail h').2.2)
  | cons c m ih =>
    cases m' with
    | nil => exact absurd (hr c.1) (by simpa [Mem.read] using (tail h).2.2)
    | cons d m' =>
      obtain ⟨hm, hc, hcv⟩ := tail h
      obtain ⟨hm', hd, hdv⟩ := tail h'
      have key : c.1 = d.1 := by
        rcases lt_trichotomy c.1 d.1 with h1 | h1 | h1
        · have := hr c.1
          rw [Mem.read_of_lt (m := d :: m') (by
            intro e he
            rcases List.mem_cons.1 he with rfl | he
            · exact h1
            · exact lt_trans h1 (hd e he))] at this
          exact absurd this (by simpa [Mem.read] using hcv)
        · exact h1
        · have := hr d.1
          rw [Mem.read_of_lt (m := c :: m) (by
            intro e he
            rcases List.mem_cons.1 he with rfl | he
            · exact h1
            · exact lt_trans h1 (hc e he))] at this
          exact absurd this.symm (by simpa [Mem.read] using hdv)
      have val : c.2 = d.2 := by simpa [Mem.read, key] using hr c.1
      have rest : m = m' := by
        refine ih hm hm' fun a => ?_
        by_cases ha : a = c.1
        · rw [ha, Mem.read_of_lt hc, Mem.read_of_lt (key ▸ hd)]
        · simpa [Mem.read, ha, key ▸ ha] using hr a
      rw [rest, Prod.ext key val]

/-! ## The segment operations -/

theorem memRead_ok {seg : Segment} {a w : Word} {s : State} (h : memRead seg a s = .ok w) :
    a.toNat < s.capacity seg ∧ w = Mem.read (s.segment seg) a.toNat := by
  unfold memRead at h
  split at h
  · cases h
  · next hn => exact ⟨by omega, by cases h; rfl⟩

theorem memRead_of_lt {seg : Segment} {a : Word} {s : State} (h : a.toNat < s.capacity seg) :
    memRead seg a s = .ok (Mem.read (s.segment seg) a.toNat) := by
  unfold memRead
  rw [if_neg (by omega)]

theorem memRead_of_ge {seg : Segment} {a : Word} {s : State} (h : s.capacity seg ≤ a.toNat) :
    memRead seg a s = .error (.outOfBounds seg a) := by
  unfold memRead
  rw [if_pos h]

theorem memWrite_ok {seg : Segment} {a v : Word} {s t : State} (h : memWrite seg a v s = .ok t) :
    a.toNat < s.capacity seg ∧ t = s.setSegment seg (Mem.write (s.segment seg) a.toNat v) := by
  unfold memWrite at h
  split at h
  · cases h
  · next hn => exact ⟨by omega, by cases h; rfl⟩

theorem memWrite_of_lt {seg : Segment} {a v : Word} {s : State} (h : a.toNat < s.capacity seg) :
    memWrite seg a v s = .ok (s.setSegment seg (Mem.write (s.segment seg) a.toNat v)) := by
  unfold memWrite
  rw [if_neg (by omega)]

theorem memWrite_of_ge {seg : Segment} {a v : Word} {s : State} (h : s.capacity seg ≤ a.toNat) :
    memWrite seg a v s = .error (.outOfBounds seg a) := by
  unfold memWrite
  rw [if_pos h]

/-- A read depends on the segment's content and capacity only. -/
theorem memRead_congr {seg : Segment} {a : Word} {s t : State} (hc : t.capacity seg = s.capacity seg)
    (hm : t.segment seg = s.segment seg) : memRead seg a t = memRead seg a s := by
  unfold memRead
  rw [hc, hm]

@[simp] theorem memRead_setReg (seg : Segment) (a : Word) (s : State) (r : Reg) (v : Word) :
    memRead seg a (s.setReg r v) = memRead seg a s := memRead_congr (by simp) (by simp)

@[simp] theorem memRead_advance (seg : Segment) (a : Word) (s : State) (op : Opcode) :
    memRead seg a (s.advance op) = memRead seg a s := memRead_congr (by cases seg <;> rfl) (by cases seg <;> rfl)

@[simp] theorem memRead_transfer (seg : Segment) (a : Word) (s : State) (target : Word) :
    memRead seg a (s.transfer target) = memRead seg a s := memRead_congr (by cases seg <;> rfl) (by cases seg <;> rfl)

@[simp] theorem memRead_compareFlags (seg : Segment) (a : Word) (s : State) (d : Word) :
    memRead seg a (s.compareFlags d) = memRead seg a s := memRead_congr (by cases seg <;> rfl) (by cases seg <;> rfl)

@[simp] theorem memRead_takeFault (seg : Segment) (a : Word) (s : State) (f : EngineFault) :
    memRead seg a (s.takeFault f) = memRead seg a s := memRead_congr (by cases seg <;> rfl) (by cases seg <;> rfl)

end Sys2Proof.Machine
end

