-- ==== Sys2Proof/Laws/Ops.lean ====
section
/-! SUPPORT. One lemma per shared operation of the machine: everything it can answer. -/

namespace Sys2Proof.Machine

/-- The end of an instruction is always a next state: the completed one, or the fault taken in the state it began in (R136). -/
theorem complete_eq_next {s t : State} {r : Except EngineFault State} (h : complete s r = .next t) :
    r = .ok t ∨ ∃ f, r = .error f ∧ t = s.takeFault f := by
  cases r with
  | ok u => cases h; exact .inl rfl
  | error f => cases h; exact .inr ⟨f, rfl, rfl⟩

@[simp] theorem complete_ok (s t : State) : complete s (.ok t) = .next t := rfl
@[simp] theorem complete_error (s : State) (f : EngineFault) : complete s (.error f) = .next (s.takeFault f) := rfl

/-- The record of any fault: a cause from 1 to 5, and the address it was taken at (R130, R131). -/
theorem record_cause (a : Word) (f : EngineFault) :
    1 ≤ (f.record a).cause.toNat ∧ (f.record a).cause.toNat ≤ 5 ∧ (f.record a).atAddr = a := by
  cases f <;> simp [EngineFault.record]

/-- The symbol lookup: the location of a resolved entry, UnresolvedSymbol of any other index (R22). -/
theorem symLoc_eq (i : Word) (s : State) :
    symLoc i s = if s.hasLocation i then .ok (s.locationOf i) else .error (.unresolvedSymbol i) := by
  unfold symLoc State.hasLocation State.locationOf
  cases s.symtab[i.toNat]? <;> rfl

theorem anySlot_operand (slot : Fin 2) (o : Operand) : anySlot slot (.operand o) = .ok o := rfl
theorem registerSlot_register (slot : Fin 2) (r : Reg) : registerSlot slot (.operand (.register r)) = .ok r := rfl
theorem symbolSlot_symbol (slot : Fin 2) (i : Word) : symbolSlot slot (.operand (.symbol i)) = .ok i := rfl

theorem anySlot_illegal {slot : Fin 2} {a : Arg} (h : a.isLegal = false) :
    anySlot slot a = .error (illegalArg slot a) := by
  cases a with
  | operand o => cases h
  | illegal k v => rfl

theorem registerSlot_illegal {slot : Fin 2} {a : Arg} (h : a.isRegister = false) :
    registerSlot slot a = .error (illegalArg slot a) := by
  unfold registerSlot
  split
  · cases h
  · rfl

theorem symbolSlot_illegal {slot : Fin 2} {a : Arg} (h : a.isSymbol = false) :
    symbolSlot slot a = .error (illegalArg slot a) := by
  unfold symbolSlot
  split
  · cases h
  · rfl

theorem isLegal_iff {a : Arg} : a.isLegal = true ↔ ∃ o, a = .operand o := by
  cases a <;> simp [Arg.isLegal]

theorem isRegister_iff {a : Arg} : a.isRegister = true ↔ ∃ r, a = .operand (.register r) := by
  cases a with
  | operand o => cases o <;> simp [Arg.isRegister]
  | illegal k v => simp [Arg.isRegister]

theorem isSymbol_iff {a : Arg} : a.isSymbol = true ↔ ∃ i, a = .operand (.symbol i) := by
  cases a with
  | operand o => cases o <;> simp [Arg.isSymbol]
  | illegal k v => simp [Arg.isSymbol]

/-- What a slot of each mask accepts, and the fault of what it does not (R85 to R87). -/
theorem anySlot_ok {slot : Fin 2} {a : Arg} {o : Operand} (h : anySlot slot a = .ok o) : a = .operand o := by
  cases a <;> cases h; rfl

theorem registerSlot_ok {slot : Fin 2} {a : Arg} {r : Reg} (h : registerSlot slot a = .ok r) :
    a = .operand (.register r) := by
  unfold registerSlot at h
  split at h
  · cases h; rfl
  · cases h

theorem symbolSlot_ok {slot : Fin 2} {a : Arg} {i : Word} (h : symbolSlot slot a = .ok i) :
    a = .operand (.symbol i) := by
  unfold symbolSlot at h
  split at h
  · cases h; rfl
  · cases h

end Sys2Proof.Machine
end

