-- ==== Sys2Proof/Laws/Assembler.lean ====
section
/-! SUPPORT. What each operation of the encoder had to find where it succeeds (R65 to R72), said once, so that no proof unfolds
one. -/

namespace Sys2Proof.Machine

/-- A name that is found gives the entry at its index (R65). -/
theorem lookupName_ok {tab : SymbolTable} {t : Token} {i : Nat} {e : SymbolEntry} (h : lookupName tab t = some (i, e)) :
    ∃ n, tab[i]? = some n ∧ n.entry = e := by
  unfold lookupName at h
  split at h
  · next j hj =>
    cases hn : tab[j]? with
    | none => rw [hn] at h; cases h
    | some n =>
      rw [hn] at h
      simp only [Option.map_some, Option.some.injEq, Prod.mk.injEq] at h
      exact ⟨n, by rw [← h.1, hn], h.2⟩
  · cases h

theorem classifyAll_length {tab : SymbolTable} {ts : List Token} {as : List Argument} (h : classifyAll tab ts = .ok as) :
    as.length = ts.length := by
  induction ts generalizing as with
  | nil => cases h; rfl
  | cons t ts ih =>
    obtain ⟨a, -, h⟩ := bind_eq_ok h
    obtain ⟨as', h1, h⟩ := bind_eq_ok h
    cases h
    simp [ih h1]

/-- Emission keeps the kind (R69). -/
theorem Argument.operand_kind {a : Argument} {o : Operand} (h : a.operand = .ok o) : o.kind = a.kind := by
  cases a with
  | integer n => obtain ⟨w, -, h⟩ := bind_eq_ok h; cases h; rfl
  | _ => cases h; rfl

/-- The operands of a line are those of its arguments, one by one (R69). -/
theorem operandsOf_ok {as : List Argument} {os : List Operand} (h : operandsOf as = .ok os) :
    List.Forall₂ (fun a o => Argument.operand a = .ok o) as os := by
  induction as generalizing os with
  | nil => cases h; exact .nil
  | cons a as ih =>
    obtain ⟨o, h0, h⟩ := bind_eq_ok h
    obtain ⟨os', h1, h⟩ := bind_eq_ok h
    cases h
    exact .cons h0 (ih h1)

/-- An accepted line: its mnemonic, its arguments as counted, classified and allowed, and its words (R66). -/
theorem encodeLine_ok {tab : SymbolTable} {m : Token} {args : List Token} {ws : List Word}
    (h : encodeLine tab (m :: args) = .ok ws) :
    ∃ op as os, mnemonicNamed m = some op ∧ args.length = op.nargs ∧ classifyAll tab args = .ok as ∧
      kindsAllowed (allowedKinds op) as = true ∧ operandsOf as = .ok os ∧ ws = emit op os := by
  simp only [encodeLine] at h
  cases hm : mnemonicNamed m with
  | none => rw [hm] at h; cases h
  | some op =>
    rw [hm] at h
    simp only at h
    split at h
    · next hl =>
      obtain ⟨as, ha, h⟩ := bind_eq_ok h
      split at h
      · next hk =>
        obtain ⟨os, ho, h⟩ := bind_eq_ok h
        cases h
        exact ⟨op, as, os, rfl, hl, ha, hk, ho, rfl⟩
      · cases h
    · cases h

theorem operandsOf_length {as : List Argument} {os : List Operand} (h : operandsOf as = .ok os) : os.length = as.length :=
  (operandsOf_ok h).length_eq.symm

theorem emit_length (op : Opcode) (os : List Operand) : (emit op os).length = 1 + 2 * os.length := by
  simp [emit, Nat.add_comm, Nat.mul_comm]

/-- Encoded lines: as many words as their mnemonics count, the opcode word of the first line first (R69, R71). -/
theorem encodeLines_ok {tab : SymbolTable} {lines : List Token} {ws : List Word} (h : encodeLines tab lines = .ok ws) :
    ws.length = linesSize lines ∧
      match lines with
      | line :: _ => ∃ op, lineOpcode line = some op ∧ ws[0]? = some op.number
      | [] => ws = [] := by
  induction lines generalizing ws with
  | nil => cases h; exact ⟨rfl, rfl⟩
  | cons line lines ih =>
    obtain ⟨vs, hv, h⟩ := bind_eq_ok h
    obtain ⟨rest, hr, h⟩ := bind_eq_ok h
    cases h
    cases ht : tokenize line with
    | nil => rw [ht] at hv; cases hv
    | cons m args =>
      rw [ht] at hv
      obtain ⟨op, as, os, hm, hl, ha, -, ho, rfl⟩ := encodeLine_ok hv
      have hop : lineOpcode line = some op := by simp [lineOpcode, ht, hm]
      refine ⟨?_, op, hop, rfl⟩
      rw [List.length_append, (ih hr).1, emit_length, operandsOf_length ho, classifyAll_length ha, hl]
      simp [linesSize, hop, Opcode.size]

/-- Pass 1 over blocks and then over more blocks (R72). -/
theorem registerAll_append {n : Nat} {r r' : Registration} {bs cs : List BlockKind}
    (h : registerAll n r (bs ++ cs) = .ok r') : ∃ q, registerAll n r bs = .ok q ∧ registerAll n q cs = .ok r' := by
  induction bs generalizing r with
  | nil => exact ⟨r, rfl, h⟩
  | cons b bs ih =>
    cases b with
    | code lines => exact ih (r := r) h
    | _ =>
      obtain ⟨r1, h1, h⟩ := bind_eq_ok h
      obtain ⟨q, h2, h3⟩ := ih h
      exact ⟨q, by simp only [registerAll, h1, ok_bind, h2], h3⟩

/-- Pass 2 over blocks and then over more blocks (R71). -/
theorem placeAll_append {n : Nat} {p p' : Placement} {bs cs : List BlockKind} (h : placeAll n p (bs ++ cs) = .ok p') :
    ∃ q, placeAll n p bs = .ok q ∧ placeAll n q cs = .ok p' := by
  induction bs generalizing p with
  | nil => exact ⟨p, rfl, h⟩
  | cons b bs ih =>
    cases b with
    | data lines => exact ih (p := p) h
    | _ =>
      obtain ⟨p1, h1, h⟩ := bind_eq_ok h
      obtain ⟨q, h2, h3⟩ := ih h
      exact ⟨q, by simp only [placeAll, h1, ok_bind, h2], h3⟩

/-- A registered symbol: its name is new, and the table grows by it at the end (R72). -/
theorem Registration.add_ok {r r' : Registration} {name : Token} {e : SymbolEntry} (h : r.add name e = .ok r') :
    r' = { r with table := r.table ++ [{ name := name, entry := e }] } ∧ r.table.length + 1 < 2 ^ 32 ∧
      ∀ n ∈ r.table, n.name ≠ name := by
  unfold Registration.add at h
  split at h
  · cases h
  · next hu =>
    split at h
    · next hl => cases h; exact ⟨rfl, hl, fun n hn he => hu (List.any_eq_true.2 ⟨n, hn, by simpa using he⟩)⟩
    · cases h

theorem scalarKind_ne_label {d : Token} {k : SymbolKind} (h : scalarKind d = .ok k) : k ≠ .label := by
  unfold scalarKind at h
  repeat' split at h
  all_goals first
    | (cases h; decide)
    | cases h

/-- A declared datum: one scalar symbol at the cursor, which lies in Data, and one Data word (R72). -/
theorem declare_ok {n : Nat} {r r' : Registration} {line : Token} (h : declare n r line = .ok r') :
    ∃ name kind w, kind ≠ .label ∧ r.cursor < n ∧
      r.add name { kind := kind, resolved := true, location := BitVec.ofNat 32 r.cursor } =
        .ok { r with table := r'.table } ∧
      r' = { table := r'.table, data := Mem.write r.data r.cursor w, cursor := r.cursor + 1 } := by
  unfold declare at h
  split at h
  · split at h
    · next name _ _ _ =>
      obtain ⟨k, hk, h⟩ := bind_eq_ok h
      obtain ⟨w, -, h⟩ := bind_eq_ok h
      split at h
      · next hc =>
        obtain ⟨r2, h2, h⟩ := bind_eq_ok h
        obtain ⟨rfl, -⟩ := Registration.add_ok h2
        cases h
        exact ⟨name, k, w, scalarKind_ne_label hk, hc, h2, rfl⟩
      · cases h
    · obtain ⟨k, -, h⟩ := bind_eq_ok h; cases h
    · cases h
  · cases h

/-- A placed block: its words fit, and they stand from the cursor on (R71). -/
theorem Placement.place_ok {n : Nat} {p p' : Placement} {lines : List Token} (h : p.place n lines = .ok p') :
    ∃ ws, encodeLines p.table lines = .ok ws ∧ p.cursor + ws.length ≤ n ∧
      p' = { p with code := Mem.writeWords p.code p.cursor ws, cursor := p.cursor + ws.length } := by
  obtain ⟨ws, hw, h⟩ := bind_eq_ok h
  split at h
  · next hl => cases h; exact ⟨ws, hw, hl, rfl⟩
  · cases h

/-- A placed LABEL block: its start is a Code address, and its label is resolved there (R71, R154). -/
theorem Placement.placeLabel_ok {n : Nat} {p p' : Placement} {name : Token} {body : List Token}
    (h : p.placeLabel n name body = .ok p') :
    ∃ ws, encodeLines p.table body = .ok ws ∧ p.cursor + ws.length ≤ n ∧ p.cursor < n ∧
      p' = { table := patchLabel p.table name p.cursor, code := Mem.writeWords p.code p.cursor ws,
             cursor := p.cursor + ws.length } := by
  obtain ⟨q, hq, h⟩ := bind_eq_ok h
  obtain ⟨ws, hw, hl, rfl⟩ := Placement.place_ok hq
  split at h
  · next hc => cases h; exact ⟨ws, hw, hl, hc, rfl⟩
  · cases h

/-- Placed blocks: the words of their instruction lines stand from the cursor on, as many as their mnemonics count (R71). -/
theorem placeAll_ok {n : Nat} {p p' : Placement} {bs : List BlockKind} (h : placeAll n p bs = .ok p') :
    ∃ ws, p'.code = Mem.writeWords p.code p.cursor ws ∧ p'.cursor = p.cursor + ws.length ∧
      ws.length = linesSize (bs.flatMap BlockKind.instructionLines) ∧
      match bs.flatMap BlockKind.instructionLines with
      | line :: _ => ∃ op, lineOpcode line = some op ∧ ws[0]? = some op.number
      | [] => ws = [] := by
  have join : ∀ {tab : SymbolTable} {lines rest : List Token} {ws vs : List Word}, encodeLines tab lines = .ok ws →
      vs.length = linesSize rest →
      (match rest with
        | line :: _ => ∃ op, lineOpcode line = some op ∧ vs[0]? = some op.number
        | [] => vs = []) →
      (ws ++ vs).length = linesSize (lines ++ rest) ∧
        match lines ++ rest with
        | line :: _ => ∃ op, lineOpcode line = some op ∧ (ws ++ vs)[0]? = some op.number
        | [] => ws ++ vs = [] := by
    intro tab lines rest ws vs hw hl hv
    obtain ⟨h1, h2⟩ := encodeLines_ok hw
    refine ⟨by simp [linesSize, h1, hl], ?_⟩
    cases lines with
    | nil => cases h2; exact hv
    | cons line lines =>
      obtain ⟨op, ho, hx⟩ := h2
      refine ⟨op, ho, ?_⟩
      cases ws with
      | nil => cases hx
      | cons w ws => exact hx
  induction bs generalizing p with
  | nil => cases h; exact ⟨[], rfl, rfl, rfl, rfl⟩
  | cons b bs ih =>
    cases b with
    | data lines => exact ih (p := p) h
    | label name body =>
      obtain ⟨p1, h1, h⟩ := bind_eq_ok h
      obtain ⟨ws, hw, -, -, rfl⟩ := Placement.placeLabel_ok h1
      obtain ⟨vs, e1, e2, e3, e4⟩ := ih h
      obtain ⟨j1, j2⟩ := join hw e3 e4
      exact ⟨ws ++ vs, by rw [Mem.writeWords_append, e1], by rw [e2, List.length_append, Nat.add_assoc], j1, j2⟩
    | code lines =>
      obtain ⟨p1, h1, h⟩ := bind_eq_ok h
      obtain ⟨ws, hw, -, rfl⟩ := Placement.place_ok h1
      obtain ⟨vs, e1, e2, e3, e4⟩ := ih h
      obtain ⟨j1, j2⟩ := join hw e3 e4
      exact ⟨ws ++ vs, by rw [Mem.writeWords_append, e1], by rw [e2, List.length_append, Nat.add_assoc], j1, j2⟩

/-- An assembled image: its blocks, what pass 1 registered and what pass 2 placed (R71, R72). -/
theorem assemble_ok {cfg : Config} {source : List Block} {im : Image} (h : assemble cfg source = .ok im) :
    ∃ blocks r p, classifyBlocks source = .ok blocks ∧
      registerAll cfg.dataWords { table := [], data := [], cursor := 0 } blocks = .ok r ∧
      placeAll cfg.codeWords { table := r.table, code := [], cursor := 0 } blocks = .ok p ∧
      im = { code := p.code, data := r.data, symtab := p.table.map NamedSymbol.entry } := by
  obtain ⟨bs, hb, h⟩ := bind_eq_ok h
  obtain ⟨r, h1, h⟩ := bind_eq_ok h
  obtain ⟨p, h2, h⟩ := bind_eq_ok h
  cases h
  exact ⟨bs, r, p, hb, h1, h2, rfl⟩

end Sys2Proof.Machine
end

