-- ==== Sys2Proof/Laws/Exec.lean ====
section
/-! SUPPORT. What executing an instruction can do, said once: it takes a fault in the state it began in, or it completes in one of
the ways listed here. Invariants are derived from this, without unfolding the meanings. -/

namespace Sys2Proof.Machine

/-- The completed outcomes, one per instruction (R90), with what had to hold for each. -/
inductive Completed : Instr → State → State → Prop where
  | none (s : State) : Completed .none s (State.advance { s with run := .halted } .none)
  | halt (s : State) : Completed .halt s (State.advance { s with run := .halted } .halt)
  | jmp (s : State) (i : Word) (hi : s.hasLocation i = true) :
      Completed (.jmp (.operand (.symbol i))) s (s.transfer (s.locationOf i))
  | mov (s : State) (d : Reg) (o : Operand) (v : Word) (hv : resolve o s = .ok v) :
      Completed (.mov (.operand (.register d)) (.operand o)) s ((s.setReg d v).advance .mov)
  | add (s : State) (d : Reg) (o : Operand) (v : Word) (hv : resolve o s = .ok v) :
      Completed (.add (.operand (.register d)) (.operand o)) s ((s.setReg d (s.reg d + v)).advance .add)
  | sub (s : State) (d : Reg) (o : Operand) (v : Word) (hv : resolve o s = .ok v) :
      Completed (.sub (.operand (.register d)) (.operand o)) s ((s.setReg d (s.reg d - v)).advance .sub)
  | push (s : State) (o : Operand) (v : Word) (hv : resolve o s = .ok v) (hs : (s.reg .st).toNat < s.cfg.stackWords) :
      Completed (.push (.operand o)) s
        (((s.setSegment .stack (Mem.write s.stack (s.reg .st).toNat v)).setReg .st (s.reg .st + 1)).advance .push)
  | pop (s : State) (d : Reg) (hs : (s.reg .st - 1).toNat < s.cfg.stackWords) :
      Completed (.pop (.operand (.register d))) s
        ((((s.setSegment .stack (Mem.write s.stack (s.reg .st - 1).toNat 0)).setReg .st (s.reg .st - 1)).setReg d
          (Mem.read s.stack (s.reg .st - 1).toNat)).advance .pop)
  | call (s : State) (i : Word) (hi : s.hasLocation i = true) (hs : (s.reg .st).toNat < s.cfg.stackWords) :
      Completed (.call (.operand (.symbol i))) s
        (((s.setSegment .stack (Mem.write s.stack (s.reg .st).toNat (s.reg .pc + 3))).setReg .st
          (s.reg .st + 1)).transfer (s.locationOf i))
  | assert (s : State) (ra : Reg) (o : Operand) (hv : resolve o s = .ok (s.reg ra)) :
      Completed (.assert (.operand (.register ra)) (.operand o)) s (s.advance .assert)
  | cmp (s : State) (a b : Operand) (av bv : Word) (ha : resolve a s = .ok av) (hb : resolve b s = .ok bv) :
      Completed (.cmp (.operand a) (.operand b)) s ((s.compareFlags (av - bv)).advance .cmp)

theorem symLoc_ok {i t : Word} {s : State} (h : symLoc i s = .ok t) : s.hasLocation i = true ∧ t = s.locationOf i := by
  rw [symLoc_eq] at h
  split at h
  · next hl => cases h; exact ⟨hl, rfl⟩
  · cases h

/-- Executing an instruction takes a fault in the state it began in, or completes (R136, R90). -/
theorem exec_cases {i : Instr} {s t : State} (h : exec i s = .next t) :
    (∃ f, t = s.takeFault f) ∨ Completed i s t := by
  cases i with
  | none => cases h; exact .inr (.none s)
  | halt => cases h; exact .inr (.halt s)
  | jmp target =>
    rcases complete_eq_next h with h | ⟨f, -, hf⟩
    · obtain ⟨i, hi, k1⟩ := bind_eq_ok h
      obtain ⟨l, hl, k2⟩ := bind_eq_ok k1
      obtain ⟨hloc, rfl⟩ := symLoc_ok hl
      cases symbolSlot_ok hi
      obtain rfl := Except.ok.inj k2
      exact .inr (.jmp s i hloc)
    · exact .inl ⟨f, hf⟩
  | call target =>
    rcases complete_eq_next h with h | ⟨f, -, hf⟩
    · obtain ⟨i, hi, k1⟩ := bind_eq_ok h
      obtain ⟨l, hl, k2⟩ := bind_eq_ok k1
      obtain ⟨u, hu, k3⟩ := bind_eq_ok k2
      obtain ⟨hloc, rfl⟩ := symLoc_ok hl
      obtain ⟨hs, rfl⟩ := memWrite_ok hu
      cases symbolSlot_ok hi
      obtain rfl := Except.ok.inj k3
      exact .inr (.call s i hloc hs)
    · exact .inl ⟨f, hf⟩
  | mov dst src =>
    rcases complete_eq_next h with h | ⟨f, -, hf⟩
    · obtain ⟨d, hd, k1⟩ := bind_eq_ok h
      obtain ⟨o, ho, k2⟩ := bind_eq_ok k1
      obtain ⟨v, hv, k3⟩ := bind_eq_ok k2
      cases registerSlot_ok hd
      cases anySlot_ok ho
      obtain rfl := Except.ok.inj k3
      exact .inr (.mov s d o v hv)
    · exact .inl ⟨f, hf⟩
  | add dst src =>
    rcases complete_eq_next h with h | ⟨f, -, hf⟩
    · obtain ⟨d, hd, k1⟩ := bind_eq_ok h
      obtain ⟨o, ho, k2⟩ := bind_eq_ok k1
      obtain ⟨v, hv, k3⟩ := bind_eq_ok k2
      cases registerSlot_ok hd
      cases anySlot_ok ho
      obtain rfl := Except.ok.inj k3
      exact .inr (.add s d o v hv)
    · exact .inl ⟨f, hf⟩
  | sub dst src =>
    rcases complete_eq_next h with h | ⟨f, -, hf⟩
    · obtain ⟨d, hd, k1⟩ := bind_eq_ok h
      obtain ⟨o, ho, k2⟩ := bind_eq_ok k1
      obtain ⟨v, hv, k3⟩ := bind_eq_ok k2
      cases registerSlot_ok hd
      cases anySlot_ok ho
      obtain rfl := Except.ok.inj k3
      exact .inr (.sub s d o v hv)
    · exact .inl ⟨f, hf⟩
  | push src =>
    rcases complete_eq_next h with h | ⟨f, -, hf⟩
    · obtain ⟨o, ho, k1⟩ := bind_eq_ok h
      obtain ⟨v, hv, k2⟩ := bind_eq_ok k1
      obtain ⟨u, hu, k3⟩ := bind_eq_ok k2
      obtain ⟨hs, rfl⟩ := memWrite_ok hu
      cases anySlot_ok ho
      obtain rfl := Except.ok.inj k3
      exact .inr (.push s o v hv hs)
    · exact .inl ⟨f, hf⟩
  | pop dst =>
    rcases complete_eq_next h with h | ⟨f, -, hf⟩
    · obtain ⟨d, hd, k1⟩ := bind_eq_ok h
      obtain ⟨v, hv, k2⟩ := bind_eq_ok k1
      obtain ⟨u, hu, k3⟩ := bind_eq_ok k2
      obtain ⟨-, rfl⟩ := memRead_ok hv
      obtain ⟨hs, rfl⟩ := memWrite_ok hu
      cases registerSlot_ok hd
      obtain rfl := Except.ok.inj k3
      exact .inr (.pop s d hs)
    · exact .inl ⟨f, hf⟩
  | assert a b =>
    rcases complete_eq_next h with h | ⟨f, -, hf⟩
    · obtain ⟨ra, hra, k1⟩ := bind_eq_ok h
      obtain ⟨o, ho, k2⟩ := bind_eq_ok k1
      obtain ⟨v, hv, k3⟩ := bind_eq_ok k2
      split at k3
      · next he =>
        cases registerSlot_ok hra
        cases anySlot_ok ho
        obtain rfl := Except.ok.inj k3
        exact .inr (.assert s ra o (he ▸ hv))
      · cases k3
    · exact .inl ⟨f, hf⟩
  | cmp a b =>
    rcases complete_eq_next h with h | ⟨f, -, hf⟩
    · obtain ⟨oa, hoa, k1⟩ := bind_eq_ok h
      obtain ⟨ob, hob, k2⟩ := bind_eq_ok k1
      obtain ⟨av, hav, k3⟩ := bind_eq_ok k2
      obtain ⟨bv, hbv, k4⟩ := bind_eq_ok k3
      cases anySlot_ok hoa
      cases anySlot_ok hob
      obtain rfl := Except.ok.inj k4
      exact .inr (.cmp s oa ob av bv hav hbv)
    · exact .inl ⟨f, hf⟩

/-- While RUNNING, a step that fetches an instruction is that instruction. -/
theorem step_of_fetch {s : State} {i : Instr} (hr : s.run = .running) (hf : fetch s = .ok i) : step s = exec i s := by
  unfold step; rw [hr, hf]

/-- While RUNNING, a step whose fetch or decode faults takes that fault. -/
theorem step_of_fetch_fault {s : State} {f : EngineFault} (hr : s.run = .running) (hf : fetch s = .error f) :
    step s = .next (s.takeFault f) := by
  unfold step; rw [hr, hf]

/-- A step from RUNNING takes a fault, or completes the instruction it fetched; from any other run state it changes nothing
(R80). -/
theorem step_cases {s t : State} (h : step s = .next t) :
    (s.run ≠ .running ∧ t = s) ∨
      (s.run = .running ∧ ((∃ f, t = s.takeFault f) ∨ ∃ i, fetch s = .ok i ∧ Completed i s t)) := by
  unfold step at h
  split at h
  · next hr =>
    refine .inr ⟨hr, ?_⟩
    split at h
    · next i hi => exact (exec_cases h).imp id fun hc => ⟨i, hi, hc⟩
    · next f _ => cases h; exact .inl ⟨f, rfl⟩
  · next hr => cases h; exact .inl ⟨by simp [hr], rfl⟩
  · next hr => cases h; exact .inl ⟨by simp [hr], rfl⟩

end Sys2Proof.Machine
end

