-- ==== Sys2Proof/Laws/PerInstr.lean ====
section
/-! SUPPORT. The family EncodedSize, per instruction: the encoding has `1 + 2*nargs` words and begins with the row's opcode
number (R50, R51, R53). -/

namespace Sys2Proof.Laws.EncodedSize

/-- The encoded length and the opcode word of an instruction (R51, R53). -/
def Statement (i : Instr) : Prop :=
  (encode i).length = i.size ∧ i.size = 1 + 2 * i.args.length ∧ (encode i).head? = some i.opcode.number

theorem words_length (a : Arg) : a.words.length = 2 := by cases a <;> rfl

theorem none : Statement .none := ⟨rfl, rfl, rfl⟩
theorem halt : Statement .halt := ⟨rfl, rfl, rfl⟩
theorem jmp (target : Arg) : Statement (.jmp target) := by
  simp [Statement, encode, Instr.args, Instr.size, Opcode.size, Opcode.nargs, Instr.opcode, words_length]
theorem mov (dst src : Arg) : Statement (.mov dst src) := by
  simp [Statement, encode, Instr.args, Instr.size, Opcode.size, Opcode.nargs, Instr.opcode, words_length]
theorem cmp (a b : Arg) : Statement (.cmp a b) := by
  simp [Statement, encode, Instr.args, Instr.size, Opcode.size, Opcode.nargs, Instr.opcode, words_length]
theorem push (src : Arg) : Statement (.push src) := by
  simp [Statement, encode, Instr.args, Instr.size, Opcode.size, Opcode.nargs, Instr.opcode, words_length]
theorem pop (dst : Arg) : Statement (.pop dst) := by
  simp [Statement, encode, Instr.args, Instr.size, Opcode.size, Opcode.nargs, Instr.opcode, words_length]
theorem add (dst src : Arg) : Statement (.add dst src) := by
  simp [Statement, encode, Instr.args, Instr.size, Opcode.size, Opcode.nargs, Instr.opcode, words_length]
theorem sub (dst src : Arg) : Statement (.sub dst src) := by
  simp [Statement, encode, Instr.args, Instr.size, Opcode.size, Opcode.nargs, Instr.opcode, words_length]
theorem call (target : Arg) : Statement (.call target) := by
  simp [Statement, encode, Instr.args, Instr.size, Opcode.size, Opcode.nargs, Instr.opcode, words_length]
theorem assert (a b : Arg) : Statement (.assert a b) := by
  simp [Statement, encode, Instr.args, Instr.size, Opcode.size, Opcode.nargs, Instr.opcode, words_length]

end Sys2Proof.Laws.EncodedSize
end

