-- ==== Sys2Proof/Tests/Slice0.lean ====
section
/-! SUPPORT. Small tests. Expected results come from spec/95_test_vectors.md (vector ids in the comments) and from the rules named
there; the witnesses at the end meet the hypotheses of the obligations, at the edges of their ranges. -/

namespace Sys2Proof.Tests

open Sys2Proof.Machine

/-! ## Builders of small states -/

/-- Reset, with the words stored in Code from address `a` on and PC = AR = `a`. -/
def start (a : Nat) (ws : List Word) : State :=
  { State.reset with
    code := Mem.writeWords [] a ws, regs := { RegFile.zero with pc := BitVec.ofNat 32 a, ar := BitVec.ofNat 32 a } }

/-- Registers set one after the other. -/
def regs (s : State) (l : List (Reg × Word)) : State := l.foldl (fun s p => s.setReg p.1 p.2) s

/-- A symbol table of (kind, resolved, location). -/
def syms (s : State) (l : List (SymbolKind × Bool × Word)) : State :=
  { s with symtab := l.map fun e => { kind := e.1, resolved := e.2.1, location := e.2.2 } }

/-- One word stored in Data. -/
def dataAt (s : State) (a : Nat) (w : Word) : State := { s with data := Mem.write s.data a w }

/-- One word stored in Stack. -/
def stackAt (s : State) (a : Nat) (w : Word) : State := { s with stack := Mem.write s.stack a w }

/-- The next state of an outcome. -/
def nextOf (o : Host.Outcome State Fault Refusal) : Option State :=
  match o with
  | .next t => some t
  | .fault _ => none
  | .refused _ => none

/-- Registers after one step, with the run state. -/
def seen (s : State) (rs : List Reg) : Option (RunState × List Word) := (nextOf (step s)).map fun t => (t.run, rs.map t.reg)

/-- The fault record after one step that leaves everything but it and the run state as it was. -/
def faulted (s : State) : Option FaultRecord :=
  (nextOf (step s)).bind fun t =>
    if { t with run := s.run, fault := s.fault } = s ∧ t.run = .faulted then some t.fault else none

/-- ZF, SF and PF after one step. -/
def flagsAfter (s : State) : Option (List (BitVec 1)) := (nextOf (step s)).map fun t => [t.flag .zf, t.flag .sf, t.flag .pf]

/-- The words of a line, one space between two tokens. -/
def line (ts : List Token) : Token := List.intercalate [' '] ts

/-! ## Well-formedness: each check refuses an ill-formed term (R85 to R87) -/

theorem test_wf_accepts : (Instr.mov (.operand (.register .x0)) (.operand (.integer 7))).wf = true := by decide
theorem test_wf_refuses_illegal_kind_word : (Instr.push (Arg.ofWords 3 10)).wf = false := by decide
theorem test_wf_refuses_kind_zero : (Instr.push (Arg.ofWords 0 10)).wf = false := by decide
theorem test_wf_refuses_ordinal_13 : (Instr.push (Arg.ofWords 1 13)).wf = false := by decide
theorem test_wf_accepts_ordinal_12 : (Instr.push (Arg.ofWords 1 12)).wf = true := by decide
theorem test_wf_refuses_literal_destination :
    (Instr.mov (.operand (.integer 5)) (.operand (.register .x0))).wf = false := by decide
theorem test_wf_refuses_literal_add : (Instr.add (.operand (.integer 5)) (.operand (.value 99))).wf = false := by decide
theorem test_wf_refuses_value_sub : (Instr.sub (.operand (.value 0)) (.operand (.integer 1))).wf = false := by decide
theorem test_wf_refuses_literal_assert : (Instr.assert (.operand (.integer 5)) (.operand (.integer 5))).wf = false := by decide
theorem test_wf_refuses_literal_pop : (Instr.pop (.operand (.integer 5))).wf = false := by decide
theorem test_wf_refuses_register_jmp : (Instr.jmp (.operand (.register .pc))).wf = false := by decide
theorem test_wf_refuses_literal_call : (Instr.call (.operand (.integer 9))).wf = false := by decide
theorem test_wf_refuses_illegal_slot1 : (Instr.cmp (.operand (.integer 5)) (Arg.ofWords 0x20 7)).wf = false := by decide

/-! ## Decoding: words written from the formats of R50 and the tables of R10, R54, R55 -/

theorem test_decode_none : decode [0] = .ok .none := by decide
theorem test_decode_halt : decode [1] = .ok .halt := by decide
theorem test_decode_jmp : decode [2, 0x10, 0] = .ok (.jmp (.operand (.symbol 0))) := by decide
theorem test_decode_mov : decode [3, 1, 12, 2, 0xFFFFFFFF] = .ok (.mov (.operand (.register .x2)) (.operand (.integer 0xFFFFFFFF))) := by
  decide
theorem test_decode_cmp : decode [4, 4, 1, 0x10, 0] = .ok (.cmp (.operand (.value 1)) (.operand (.symbol 0))) := by decide
theorem test_decode_push : decode [5, 8, 3] = .ok (.push (.operand (.address 3))) := by decide
theorem test_decode_pop : decode [6, 1, 0] = .ok (.pop (.operand (.register .pc))) := by decide
theorem test_decode_add : decode [7, 1, 11, 1, 12] = .ok (.add (.operand (.register .x1)) (.operand (.register .x2))) := by
  decide
theorem test_decode_sub : decode [8, 1, 3, 1, 4] = .ok (.sub (.operand (.register .sb)) (.operand (.register .ft))) := by decide
theorem test_decode_call : decode [9, 16, 7] = .ok (.call (.operand (.symbol 7))) := by decide
theorem test_decode_assert : decode [10, 1, 8, 2, 42] = .ok (.assert (.operand (.register .ct)) (.operand (.integer 42))) := by
  decide
/-- R52: all 32 bits of the opcode word count (F4). -/
theorem test_decode_upper_bits : decode [0x101] = .error (.illegalOpcode 0x101) := by decide
/-- R58: the first word that names no instruction (F3). -/
theorem test_decode_eleven : decode [11, 0, 0, 0, 0] = .error (.illegalOpcode 11) := by decide
/-- R52: all 32 bits of the kind word count. -/
theorem test_decode_kind_upper_bits : decode [5, 0x101, 0] = .ok (.push (.illegal 0x101 0)) := by decide
theorem test_decode_truncated : decode [3, 1, 10] = .error (.truncated 3) := by decide
theorem test_encode_mov : encode (.mov (.operand (.register .x0)) (.operand (.integer 7))) = [3, 1, 10, 2, 7] := by decide
/-- The row POP of the opcode table as one number: word 0 is 6, the words above are 0. -/
theorem test_table_word_pop : decodeTableWord 32 6 = some (.pop (.illegal 0 0)) := by decide
/-- `POP AR` as one number of 96 bits: words 6, 1, 1, the first lowest. -/
theorem test_table_word_pop_ar :
    decodeTableWord 96 (6 + 1 * 2 ^ 32 + 1 * 2 ^ 64) = some (.pop (.operand (.register .ar))) := by decide
theorem test_table_word_eleven : decodeTableWord 32 11 = none := by decide
/-- A word placed after reset is what the next step runs. -/
theorem test_fetch_placed_word :
    fetch (State.reset.withFetchWord 96 (6 + 1 * 2 ^ 32 + 1 * 2 ^ 64)) = .ok (.pop (.operand (.register .ar))) := by decide

/-! ## One step each -/

/-- F1. -/
theorem test_none_halts : seen State.reset [.pc, .ar] = some (.halted, [1, 1]) := by decide
/-- H3. -/
theorem test_halt_out_of_lockstep : seen (regs (start 3 [1]) [(.pc, 9)]) [.pc, .ar] = some (.halted, [10, 4]) := by decide
/-- F7. -/
theorem test_halt_last_word : seen (start 4095 [1]) [.pc, .ar] = some (.halted, [4096, 4096]) := by decide
/-- J8. -/
theorem test_jmp_restores_lockstep :
    seen (syms (regs (start 100 [2, 0x10, 0]) [(.pc, 50)]) [(.label, true, 3)]) [.pc, .ar] = some (.running, [3, 3]) := by decide
/-- J3. -/
theorem test_jmp_index_nsym : faulted (syms (start 0 [2, 0x10, 1]) [(.label, true, 3)]) = some ⟨4, 0, 1, 0, 0, 0, 0⟩ := by decide
/-- M4. -/
theorem test_mov_value :
    seen (dataAt (syms (start 0 [3, 1, 10, 4, 0]) [(.integer, true, 2)]) 2 40) [.x0, .pc, .ar] = some (.running, [40, 5, 5]) := by
  decide
/-- M9. -/
theorem test_mov_ar : seen (start 0 [3, 1, 1, 2, 20]) [.pc, .ar] = some (.running, [5, 25]) := by decide
/-- A6. -/
theorem test_add_ar : seen (regs (start 0 [7, 1, 1, 1, 10]) [(.x0, 10)]) [.pc, .ar] = some (.running, [5, 15]) := by decide
/-- A3. -/
theorem test_add_wraps_same_register :
    seen (regs (start 0 [7, 1, 10, 1, 10]) [(.x0, 0x80000000)]) [.x0] = some (.running, [0]) := by decide
/-- B1. -/
theorem test_sub_wraps :
    seen (regs (start 0 [8, 1, 10, 1, 11]) [(.x0, 5), (.x1, 7)]) [.x0, .x1] = some (.running, [0xFFFFFFFE, 7]) := by decide
/-- B6: SUB to zero writes no flag. -/
theorem test_sub_writes_no_flag : flagsAfter (regs (start 0 [8, 1, 10, 2, 5]) [(.x0, 5)]) = some [0, 0, 0] := by decide
/-- K4: PUSH ST pushes the old ST. -/
theorem test_push_st :
    (nextOf (step (regs (start 0 [5, 1, 2]) [(.st, 3)]))).map (fun t => (t.reg .st, t.stack)) = some (4, [(3, 3)]) := by decide
/-- K3. -/
theorem test_push_full : faulted (regs (start 0 [5, 2, 7]) [(.st, 256)]) = some ⟨1, 0, 0, 256, 0, 0, 0⟩ := by decide
/-- K12: the destination is written last. -/
theorem test_pop_st :
    (nextOf (step (stackAt (regs (start 0 [6, 1, 2]) [(.st, 1)]) 0 7))).map (fun t => (t.reg .st, t.stack)) = some (7, []) := by
  decide
/-- K10. -/
theorem test_pop_empty : faulted (start 0 [6, 1, 10]) = some ⟨1, 0, 0, 0xFFFFFFFF, 0, 0, 0⟩ := by decide
/-- L5: the return address comes from PC. -/
theorem test_call_pushes_pc_plus_3 :
    (nextOf (step (syms (regs (start 5 [9, 0x10, 0]) [(.pc, 25)]) [(.label, true, 40)]))).map
      (fun t => ([t.reg .st, t.reg .pc, t.reg .ar], t.stack)) = some ([1, 40, 40], [(0, 28)]) := by decide
/-- L4: resolution before the stack check. -/
theorem test_call_resolves_first :
    faulted (syms (regs (start 0 [9, 0x10, 0]) [(.st, 256)]) [(.label, false, 0)]) = some ⟨4, 0, 0, 0, 0, 0, 0⟩ := by decide
/-- T6. -/
theorem test_assert_fails :
    faulted (dataAt (syms (regs (start 0 [10, 1, 10, 4, 0]) [(.x0, 7)]) [(.integer, true, 2)]) 2 40) =
      some ⟨5, 0, 10, 7, 4, 0, 40⟩ := by decide
/-- T7. -/
theorem test_assert_passes :
    seen (regs (start 0 [10, 1, 10, 2, 0xFFFFFFFF]) [(.x0, 0xFFFFFFFF)]) [.pc, .ar] = some (.running, [5, 5]) := by decide
/-- X4: signed overflow. -/
theorem test_cmp_overflow :
    flagsAfter (regs (start 0 [4, 1, 10, 1, 11]) [(.x0, 0x80000000), (.x1, 1)]) = some [0, 0, 1] := by decide
/-- X10: an odd number of one bits in the low byte. -/
theorem test_cmp_parity : flagsAfter (regs (start 0 [4, 1, 10, 1, 11]) [(.x0, 5), (.x1, 7)]) = some [0, 1, 0] := by decide
/-- F6: the first word out of bounds. -/
theorem test_fetch_runs_off_code : faulted (start 4094 [3, 1]) = some ⟨1, 4094, 2, 4096, 0, 0, 0⟩ := by decide
/-- F12, F13: slot 0 first, and the static checks before resolution. -/
theorem test_illegal_operands :
    faulted (start 0 [3, 0, 10, 0x20, 7]) = some ⟨3, 0, 0, 0, 10, 0, 0⟩ ∧
      faulted (start 0 [7, 2, 5, 4, 99]) = some ⟨3, 0, 0, 2, 5, 0, 0⟩ := by decide
/-- F16. -/
theorem test_faulted_stays : nextOf (step (State.reset.takeFault (.illegalOpcode 11))) = some (State.reset.takeFault (.illegalOpcode 11)) := by
  decide

/-! ## The encoder: lines E1 to E21 over a table of `start` (a label) and `val` (a scalar at 3) -/

def tokStart : Token := ['s', 't', 'a', 'r', 't']
def tokVal : Token := ['v', 'a', 'l']

def table : SymbolTable :=
  [{ name := tokStart, entry := { kind := .label, resolved := false, location := 0 } },
   { name := tokVal, entry := { kind := .integer, resolved := true, location := 3 } }]

def enc (ts : List Token) : Except AsmError (List Word) := encodeLine table (tokenize (line ts))

/-- E3, E4. -/
theorem test_enc_literals :
    enc [['M', 'O', 'V'], ['x', '0', ','], ['7']] = .ok [3, 1, 10, 2, 7] ∧
      enc [['M', 'O', 'V'], ['x', '0', ','], ['0', 'x', '2', 'A']] = .ok [3, 1, 10, 2, 42] := by decide
/-- E6. -/
theorem test_enc_trailing_comma : enc [['P', 'U', 'S', 'H'], ['x', '0', ',']] = .ok [5, 1, 10] := by decide
/-- E7, E9: a label by its index, a scalar by its Data offset. -/
theorem test_enc_symbols :
    enc [['J', 'M', 'P'], tokStart] = .ok [2, 16, 0] ∧
      enc [['S', 'U', 'B'], ['x', '0', ','], tokVal] = .ok [8, 1, 10, 8, 3] := by decide
/-- E13. -/
theorem test_enc_cmp : enc [['C', 'M', 'P'], ['['] ++ tokVal ++ [']', ','], tokStart] = .ok [4, 4, 1, 16, 0] := by decide
/-- E16 to E20. -/
theorem test_enc_errors :
    enc [['H', 'A', 'L', 'T'], ['x', '0']] = .error .argumentCountMismatch ∧
      enc [['J', 'M', 'P'], tokVal] = .error .operandTypeMismatch ∧
      enc [['P', 'O', 'P'], ['5']] = .error .operandTypeMismatch ∧
      enc [['F', 'O', 'O'], ['x', '0']] = .error .unknownMnemonic ∧
      enc [['P', 'U', 'S', 'H'], ['b', 'a', 'r']] = .error (.unresolvedSymbol ['b', 'a', 'r']) ∧
      enc [['P', 'U', 'S', 'H'], ['4', '2', '9', '4', '9', '6', '7', '2', '9', '6']] = .error .literalOutOfRange := by decide

/-- The source text of S1: a jump over nothing to a label that halts. -/
def sourceS1 : List Block := [[line [['J', 'M', 'P'], tokStart]], [tokStart ++ [':'], ['H', 'A', 'L', 'T']]]

/-- S1. -/
theorem test_assemble_s1 :
    assemble Config.default sourceS1 =
      .ok { code := [(0, 2), (1, 0x10), (3, 1)], data := [], symtab := [{ kind := .label, resolved := true, location := 3 }] } := by
  decide

/-- A data block and a use of its symbol. -/
def sourceS2 : List Block := [[line [tokVal ++ [':'], ['d', 'b'], ['5']]], [line [['P', 'U', 'S', 'H'], ['['] ++ tokVal ++ [']']]]]

/-- S2, with a use of the symbol. -/
theorem test_assemble_s2 :
    assemble Config.default sourceS2 =
      .ok { code := [(0, 5), (1, 4)], data := [(0, 5)], symtab := [{ kind := .byte, resolved := true, location := 0 }] } := by
  decide

/-- R71: a block that does not fit; R72: `dd` is refused; R63: an unknown block. -/
theorem test_assemble_errors :
    assemble { Config.default with codeWords := 3 } sourceS1 = .error .allocationExhausted ∧
      assemble Config.default [[line [tokVal ++ [':'], ['d', 'd'], ['5']]]] = .error .unsupportedDeclaration ∧
      assemble Config.default [[['F', 'O', 'O']]] = .error .unknownBlockType := by decide

/-! ## Witnesses: states and operands that meet the hypotheses of each obligation -/

/-- Words that stand in Code, checked one by one, stand there for every index. -/
theorem words_in_code {s : State} {ws : List Word}
    (h : ∀ j : Fin ws.length, memRead .code (s.reg .ar + BitVec.ofNat 32 j.val) s = .ok ws[j]) :
    ∀ j w, ws[j]? = some w → memRead .code (s.reg .ar + BitVec.ofNat 32 j) s = .ok w := by
  intro j w hj
  obtain ⟨hl, rfl⟩ := List.getElem?_eq_some_iff.1 hj
  exact h ⟨j, hl⟩

/-- StepRunsDecodedInstruction, FirstStepFetchesAtZero: MOV x0, 7 at address 0 after reset. -/
theorem test_witness_step_runs_decoded :
    (start 0 [3, 1, 10, 2, 7]).run = .running ∧
      (∀ j w, [3, 1, 10, 2, 7][j]? = some w →
        memRead .code ((start 0 [3, 1, 10, 2, 7]).reg .ar + BitVec.ofNat 32 j) (start 0 [3, 1, 10, 2, 7]) = .ok w) ∧
      decode [3, 1, 10, 2, 7] = .ok (.mov (.operand (.register .x0)) (.operand (.integer 7))) :=
  ⟨by decide, words_in_code (by decide), by decide⟩

theorem test_witness_first_step :
    (∀ j w, [3, 1, 10, 2, 7][j]? = some w → memRead .code (BitVec.ofNat 32 j) (start 0 [3, 1, 10, 2, 7]) = .ok w) ∧
      decode [3, 1, 10, 2, 7] = .ok (.mov (.operand (.register .x0)) (.operand (.integer 7))) := by
  refine ⟨fun j w hj => ?_, by decide⟩
  have h0 : (0 : Word) + BitVec.ofNat 32 j = BitVec.ofNat 32 j := BitVec.zero_add _
  rw [← h0]
  exact words_in_code (s := start 0 [3, 1, 10, 2, 7]) (by decide) j w hj

/-- A state with the fetch fault of a row of more than one word: its opcode word at AR, its last word past Code. -/
def fetchEdge (op : Opcode) (s : State) : Bool :=
  decide (op ≠ .none ∧ op ≠ .halt ∧ s.run = .running ∧ s.cfg.wf ∧ memRead .code (s.reg .ar) s = .ok op.number ∧
    s.cfg.codeWords < (s.reg .ar).toNat + op.size)

/-- FetchOutsideCodeFaults and the FetchFault of every row, NoneAndHaltEndTheRun: the first address outside Code, the largest
address, the first and the last address where an instruction of 3 or of 5 words does not fit. -/
theorem test_witness_fetch_outside :
    ((start 4096 []).run = .running ∧ (start 4096 []).cfg.codeWords ≤ ((start 4096 []).reg .ar).toNat) ∧
      State.reset.cfg.codeWords ≤ ((regs State.reset [(.ar, 0xFFFFFFFF)]).reg .ar).toNat ∧
      ([Opcode.jmp, .push, .pop, .call].all fun op =>
        fetchEdge op (start 4094 [op.number]) && fetchEdge op (start 4095 [op.number]) &&
          !fetchEdge op (start 4093 [op.number])) = true ∧
      ([Opcode.mov, .cmp, .add, .sub, .assert].all fun op =>
        fetchEdge op (start 4092 [op.number]) && fetchEdge op (start 4095 [op.number]) &&
          !fetchEdge op (start 4091 [op.number])) = true := by decide

/-- OpcodeWordSelectsRow, FetchedWordsFollowTheFormats: the least and the largest word that names nothing, and the last row. -/
theorem test_witness_opcode_word :
    memRead .code ((start 0 [11]).reg .ar) (start 0 [11]) = .ok 11 ∧
      memRead .code ((start 0 [0xFFFFFFFF]).reg .ar) (start 0 [0xFFFFFFFF]) = .ok 0xFFFFFFFF ∧
      memRead .code ((start 0 [10, 1, 10, 1, 10]).reg .ar) (start 0 [10, 1, 10, 1, 10]) = .ok 10 ∧
      fetch (start 0 [10, 1, 10, 1, 10]) = .ok (.assert (.operand (.register .x0)) (.operand (.register .x0))) := by decide

/-- NoStateChangesUnlessRunning, RunStateTransitions, ReadOutOnlyWhenEnded: one state of each kind, and a step of each kind. -/
theorem test_witness_run_states :
    (State.reset.takeFault (.illegalOpcode 11)).run ≠ .running ∧ ({ State.reset with run := .halted } : State).run ≠ .running ∧
      seen (start 0 [0]) [] = some (.halted, []) ∧ seen (start 0 [1]) [] = some (.halted, []) ∧
      seen (start 0 [11]) [] = some (.faulted, []) ∧ seen (start 0 [5, 2, 7]) [] = some (.running, []) := by decide

/-- A state with a resolved label at 4096, an unresolved label, a scalar at the last Data word and one just past it. -/
def symbols : State :=
  syms State.reset [(.label, true, 4096), (.label, false, 0), (.integer, true, 1023), (.integer, true, 1024)]

/-- JmpTransfersToLocation, CallPushesReturnAddress, SymbolFaults, SymbolLookup: a resolved index, an unresolved one, the index
NSYM, and an argument that is no SYMBOL. -/
theorem test_witness_symbols :
    symbols.hasLocation 0 = true ∧ symbols.hasLocation 1 = false ∧ symbols.hasLocation 4 = false ∧
      symbols.symtab.length ≤ (4 : Word).toNat ∧ symbols.symtab[(0 : Word).toNat]?.map SymbolEntry.resolved = some true ∧
      symbols.symtab[(1 : Word).toNat]?.map SymbolEntry.resolved = some false ∧
      (Arg.operand (.register .pc)).isSymbol = false ∧ (Arg.ofWords 0 0).isSymbol = false ∧ symbols.run = .running ∧
      symbols.cfg.codeWords ≤ (symbols.locationOf 0).toNat ∧
      (syms State.reset [(.label, true, 0)]).locationOf 0 = State.reset.reg .ar ∧ State.reset.lockstep := by decide

/-- MovWritesResolvedSource, AddWritesSum, SubWritesDifference, AssertComparesWords, CmpSetsFlagsFromDifference and
RegisterSourceFaults: every kind resolves somewhere, VALUE at the last Data word, and each resolution fault occurs. -/
theorem test_witness_operands :
    ([Operand.register .x0, .integer 7, .address 9, .symbol 0, .value 2].map (resolutionFault symbols)) =
        [none, none, none, none, none] ∧
      ([Operand.symbol 1, .symbol 4, .value 1, .value 3].map (resolutionFault symbols)) =
        [some (.unresolvedSymbol 1), some (.unresolvedSymbol 4), some (.unresolvedSymbol 1), some (.outOfBounds .data 1024)] ∧
      (Arg.operand (.integer 5)).isRegister = false ∧ (Arg.ofWords 1 13).isRegister = false ∧
      (Arg.ofWords 1 12).isRegister = true ∧ (Arg.ofWords 1 13).isLegal = false ∧ (Arg.ofWords 3 10).isLegal = false ∧
      symbols.reg .x0 = operandValue symbols (.integer 0) ∧ symbols.reg .x0 ≠ operandValue symbols (.symbol 0) := by decide

/-- PushStoresAtStackTop, PopLoadsAndZeroesStackTop, CallPushesReturnAddress, PushPopPairing, CallThenPopGivesReturnAddress: the
last free slot, a full stack, one word past it, an empty stack, a full one to pop from; and lock-step. -/
theorem test_witness_stack :
    (let s := regs symbols [(.st, 255)];
      Mem.wf s.stack ∧ (s.reg .st).toNat < s.cfg.stackWords ∧ s.hasLocation 0 = true ∧ s.lockstep) ∧
      (let s := regs symbols [(.st, 256)];
        s.cfg.stackWords ≤ (s.reg .st).toNat ∧ s.hasLocation 0 = true ∧ memRead .stack (s.reg .st - 1) s = .ok 0) ∧
      (let s := stackAt (regs symbols [(.st, 1)]) 0 42;
        Mem.wf s.stack ∧ memRead .stack (s.reg .st - 1) s = .ok 42) ∧
      (let s := regs symbols [(.st, 257)];
        s.cfg.stackWords ≤ (s.reg .st - 1).toNat) ∧
      symbols.cfg.wf ∧ symbols.reg .st = 0 ∧ symbols.cfg.stackWords ≤ (symbols.reg .st - 1).toNat := by decide

/-- CmpSignFlagAndSignedOverflow: the true difference at both ends of the signed range and one past each. -/
theorem test_witness_cmp_sign :
    ([((0x80000000 : Word), (0 : Word)), (0x7FFFFFFF, 0), (0x80000000, 1), (0x7FFFFFFF, 0xFFFFFFFF)].map fun p =>
      (p.1.toInt - p.2.toInt, (nextOf (exec (.cmp (.operand (.integer p.1)) (.operand (.integer p.2))) State.reset)).map
        fun t => t.flag .sf)) =
      [(-2147483648, some 1), (2147483647, some 0), (-2147483649, some 0), (2147483648, some 1)] := by decide

/-- StepIgnoresSymbolKinds, NoStepReadsFlagsOrRecord, StepKeepsImage: a step that looks a symbol up. -/
theorem test_witness_step_with_symbol :
    seen (syms (start 0 [2, 0x10, 0]) [(.label, true, 3)]) [.ar] = some (.running, [3]) ∧
      seen ((syms (start 0 [2, 0x10, 0]) [(.label, true, 3)]).withKinds fun _ => .string) [.ar] = some (.running, [3]) ∧
      flagsAfter ((start 0 [4, 2, 5, 2, 5]).withUnread ⟨1, 0, 0, 1⟩ FaultRecord.empty) = some [1, 0, 1] := by decide

/-- SlotsMakeTheStaticChecks: no fault and each fault, at the edges. -/
theorem test_witness_static_checks :
    ([staticFault 0 0x1F 1 12, staticFault 0 0x1F 1 13, staticFault 1 0x1F 3 10, staticFault 1 0x1F 0x20 7,
      staticFault 0 0x1F 0 7, staticFault 0 0x01 2 5, staticFault 0 0x01 1 13, staticFault 0 0x10 0x10 5,
      staticFault 0 0x10 1 0].map Option.isSome) = [false, true, true, true, true, true, true, false, true] := by decide

/-- SegmentAccessesAreBoundsChecked: the last address of each segment and the first one past it. -/
theorem test_witness_bounds :
    ([(Segment.stack, (255 : Word)), (.data, 1023), (.code, 4095)].all fun p => decide (p.2.toNat < State.reset.capacity p.1)) =
        true ∧
      ([(Segment.stack, (256 : Word)), (.data, 1024), (.code, 4096), (.stack, 0xFFFFFFFF)].all fun p =>
        decide (State.reset.capacity p.1 ≤ p.2.toNat)) = true := by decide

/-- ReadGivesLatestWrite: a write of a nonzero word and of 0 (which unlists it), in canonical content. -/
theorem test_witness_write :
    Mem.wf ((stackAt State.reset 0 42).segment .stack) ∧
      (memWrite .stack 0 0 (stackAt State.reset 0 42)).toOption.map (fun t => t.stack) = some [] ∧
      (memWrite .stack 255 7 (stackAt State.reset 0 42)).toOption.map (fun t => t.stack) = some [(0, 42), (255, 7)] := by decide

/-- FaultsArePrecise, FaultPriority: for each of the eight items of R134 a step whose first fault it is, and one with none. -/
theorem test_witness_fault_priority :
    State.reset.cfg.wf ∧
      ([start 4096 [], start 0 [11], start 4094 [3, 1], start 0 [3, 0, 10, 0x20, 7], start 0 [3, 1, 10, 0x20, 7],
        start 0 [4, 4, 0, 4, 1], start 0 [3, 1, 10, 4, 1], dataAt (syms (start 0 [3, 1, 10, 4, 0]) [(.byte, true, 1024)]) 0 1,
        start 0 [6, 1, 10], start 0 [10, 1, 10, 2, 42], start 0 [3, 1, 10, 2, 7]].map stepFault) =
        [some (.outOfBounds .code 4096), some (.illegalOpcode 11), some (.outOfBounds .code 4096),
          some (.illegalOperand 0 0 10), some (.illegalOperand 1 0x20 7), some (.unresolvedSymbol 0), some (.unresolvedSymbol 1),
          some (.outOfBounds .data 1024), some (.outOfBounds .stack 0xFFFFFFFF),
          some (.assertionFailed .x0 0 (.integer 42) 42), none] := by decide

/-- MicrosequenceDecidesTheFault: an access that fails, none that fails, and ASSERT on unequal words. -/
theorem test_witness_microsequence :
    (let s := syms (regs (start 0 [9, 0x10, 0]) [(.st, 256)]) [(.label, true, 9)];
      let i := Instr.call (.operand (.symbol 0));
      s.run = .running ∧ fetch s = .ok i ∧ i.wf = true ∧ firstFault s (microsequence i s) = some (.outOfBounds .stack 256)) ∧
      (let s := start 0 [5, 2, 7];
        let i := Instr.push (.operand (.integer 7));
        fetch s = .ok i ∧ i.wf = true ∧ microsequence i s = [.read .code 0, .read .code 1, .read .code 2, .write .stack 0 7] ∧
          firstFault s (microsequence i s) = none) ∧
      (let s := start 0 [10, 1, 10, 2, 42];
        let i := Instr.assert (.operand (.register .x0)) (.operand (.integer 42));
        fetch s = .ok i ∧ i.wf = true ∧ firstFault s (microsequence i s) = none) := by decide

/-- StepKeepsWf, RunKeepsWf: a state that meets the invariant and its step, a push at the last slot. -/
theorem test_witness_invariant :
    (regs (start 0 [5, 2, 7]) [(.st, 255)]).wf ∧
      (nextOf (step (regs (start 0 [5, 2, 7]) [(.st, 255)]))).map (fun t => decide t.wf) = some true := by decide

theorem test_witness_run :
    State.wf (start 0 [5, 2, 7]) ∧ ∃ t, core.run 2 (start 0 [5, 2, 7]) = .next t ∧ State.run t = .halted :=
  ⟨by decide, _, rfl, by decide⟩

/-- OnlyCmpWritesFlags, LockstepIsKept, RegistersChangeOnlyAsNamed, AdvanceAddsSizeToBoth, OnlyStackInstructionsWriteMemory: an
instruction for each hypothesis, and a word that a step does change. -/
theorem test_witness_whole_machine :
    (let i := Instr.push (.operand (.integer 7));
      State.reset.lockstep ∧ destinationOf i ≠ some .pc ∧ destinationOf i ≠ some .ar ∧ i.opcode ≠ .cmp ∧ i.opcode ≠ .jmp ∧
        i.opcode ≠ .call ∧ destinationOf i ≠ some .x0 ∧ State.reset.run = .running ∧
        (nextOf (exec i State.reset)).map (fun t => (t.run, decide (memRead .stack 0 t ≠ memRead .stack 0 State.reset))) =
          some (.running, true)) ∧
      (let i := Instr.mov (.operand (.register .st)) (.operand (.integer 256));
        destinationOf i = some .st ∧ destinationOf i ≠ some .x0 ∧
          (nextOf (exec i State.reset)).map (fun t => t.reg .st) = some 256) ∧
      (let i := Instr.assert (.operand (.register .st)) (.operand (.integer 0));
        destinationOf i ≠ some .st ∧ i.opcode ≠ .push ∧ i.opcode ≠ .pop ∧ i.opcode ≠ .call ∧
          (nextOf (exec i State.reset)).map (fun t => t.reg .st) = some 0) ∧
      (let i := Instr.mov (.operand (.register .ar)) (.operand (.integer 20));
        destinationOf i ≠ some .pc ∧ (nextOf (exec i State.reset)).map (fun t => [t.reg .pc, t.reg .ar]) = some [5, 25]) := by
  decide

/-- DecodeOfEncode, EncodeOfDecode: a well-formed instruction with words after it. -/
theorem test_witness_encoding :
    (Instr.pop (.operand (.register .x2))).wf = true ∧ decode [6, 1, 12, 99] = .ok (.pop (.operand (.register .x2))) ∧
      decode [3, 0, 10, 0x20, 7, 1] = .ok (.mov (.illegal 0 10) (.illegal 0x20 7)) := by decide

/-- ResetValues, LoadContract: the last word of each segment. -/
theorem test_witness_reset :
    (255 : Word).toNat < State.reset.cfg.stackWords ∧ (1023 : Word).toNat < State.reset.cfg.dataWords ∧
      (4095 : Word).toNat < State.reset.cfg.codeWords := by decide

/-- UnwrittenCodeHalts: a Code word past the last instruction. -/
theorem test_witness_unwritten :
    (let s := regs (start 0 [3, 1, 10, 2, 1]) [(.pc, 5), (.ar, 5)];
      s.run = .running ∧ (s.reg .ar).toNat < s.cfg.codeWords ∧ ∀ c ∈ s.code, c.1 ≠ (s.reg .ar).toNat) ∧
      seen (regs (start 0 [3, 1, 10, 2, 1]) [(.pc, 5), (.ar, 5)]) [.ar] = some (.halted, [6]) := by decide

/-- ArgumentCountMismatchFires: a mnemonic, with its argument count, one less and one more. -/
theorem test_witness_argument_count :
    mnemonicNamed ['P', 'U', 'S', 'H'] = some .push ∧ encodeLine table [['P', 'U', 'S', 'H'], ['7']] = .ok [5, 2, 7] ∧
      encodeLine table [['P', 'U', 'S', 'H']] = .error .argumentCountMismatch ∧
      encodeLine table [['P', 'U', 'S', 'H'], ['7'], ['8']] = .error .argumentCountMismatch := by decide

/-- ArgumentClassification: a token for each clause, and the literals at the edge of the word. -/
theorem test_witness_classification :
    registerNamed ['x', '0'] = some .x0 ∧ registerNamed tokVal = none ∧
      lookupName table tokVal = some (1, { kind := .integer, resolved := true, location := 3 }) ∧
      lookupName table tokStart = some (0, { kind := .label, resolved := false, location := 0 }) ∧
      lookupName table ['7'] = none ∧ bracketed ['7'] = none ∧ bracketed (['['] ++ tokVal ++ [']']) = some tokVal ∧
      literalValue ['4', '2', '9', '4', '9', '6', '7', '2', '9', '5'] = some 4294967295 ∧
      literalValue ['4', '2', '9', '4', '9', '6', '7', '2', '9', '6'] = some 4294967296 ∧
      literalValue ['b', 'a', 'r'] = none ∧ literalValue ['0', 'x'] = none := by decide

/-- EncodedLineDecodes, EncodedTransfersAndPopsAreWellFormed, EncodedOperandsNameSymbols: accepted lines of JMP, POP and one with
a VALUE and an ADDRESS. -/
theorem test_witness_encoded_lines :
    table.length < 2 ^ 32 ∧
      encodeLine table [['J', 'M', 'P'], tokStart] = .ok [2, 0x10, 0] ∧
      decode [2, 0x10, 0] = .ok (.jmp (.operand (.symbol 0))) ∧
      encodeLine table [['P', 'O', 'P'], ['x', '2']] = .ok [6, 1, 12] ∧
      encodeLine table [['C', 'M', 'P'], ['['] ++ tokVal ++ [']'], tokVal] = .ok [4, 4, 1, 8, 3] ∧
      decode [4, 4, 1, 8, 3] = .ok (.cmp (.operand (.value 1)) (.operand (.address 3))) := by decide

/-- A jump to a label at the very end of the text, an empty block. -/
def sourceEnd : List Block := [[line [['P', 'U', 'S', 'H'], tokStart]], [tokStart ++ [':']]]

/-- AssembledImageLoadsWf, AssembledSymbolsAreResolved: legal capacities and an accepted source, one with a label at the last Code
word; with one word less the label has no Code address (log entry 17). -/
theorem test_witness_assembled :
    Config.default.wf ∧ (assemble Config.default sourceS2).toOption.isSome = true ∧
      (assemble { Config.default with codeWords := 4 } sourceEnd) =
        .ok { code := [(0, 5), (1, 16)], data := [], symtab := [{ kind := .label, resolved := true, location := 3 }] } ∧
      (assemble { Config.default with codeWords := 3 } sourceEnd) = .error .allocationExhausted := by decide

/-- AssembledLabelsStandAtTheirBlocks: a label with a line of its own after a JMP, and one that ends the text. -/
theorem test_witness_label_blocks :
    (classifyBlocks sourceS1).toOption =
        some ([.code [line [['J', 'M', 'P'], tokStart]]] ++ .label tokStart [['H', 'A', 'L', 'T']] :: []) ∧
      linesSize [line [['J', 'M', 'P'], tokStart]] = 3 ∧ lineOpcode ['H', 'A', 'L', 'T'] = some .halt ∧
      (classifyBlocks sourceEnd).toOption =
        some ([.code [line [['P', 'U', 'S', 'H'], tokStart]]] ++ .label tokStart [] :: []) := by decide

/-- EncoderFailsInOrder: a token that classifies as nothing after one that does, a kind that is not allowed on a literal out of
range, a literal out of range where its kind is allowed, and at the edge of the word. -/
theorem test_witness_encoder_order :
    mnemonicNamed ['F', 'O', 'O'] = none ∧ classify table ['7'] = .ok (.integer 7) ∧
      enc [['C', 'M', 'P'], ['7'], ['b', 'a', 'r']] = .error (.unresolvedSymbol ['b', 'a', 'r']) ∧
      enc [['J', 'M', 'P'], ['4', '2', '9', '4', '9', '6', '7', '2', '9', '6']] = .error .operandTypeMismatch ∧
      enc [['P', 'U', 'S', 'H'], ['4', '2', '9', '4', '9', '6', '7', '2', '9', '6']] = .error .literalOutOfRange ∧
      enc [['P', 'U', 'S', 'H'], ['4', '2', '9', '4', '9', '6', '7', '2', '9', '5']] = .ok [5, 2, 0xFFFFFFFF] := by decide

/-- The two choices of log entries 15 and 16: `[x0]` is VALUE for a symbol named `x0`, and a trailing comma is stripped from the
tokens of a declaration line too. -/
theorem test_marked_choices :
    classify [{ name := ['x', '0'], entry := { kind := .byte, resolved := true, location := 0 } }] ['[', 'x', '0', ']'] =
        .ok (.value 0) ∧
      (assemble Config.default [[line [tokVal ++ [':'], ['d', 'b', ','], ['5', ',']]]]).toOption.map (fun im => im.data) =
        some [(0, 5)] ∧
      classifyBlock [tokStart ++ [':', ',']] = .ok (.label tokStart []) := by decide

/-- NoStepReadsFlagsOrRecord: a CMP from other flags, a fault from another record, and a step that writes neither. -/
theorem test_witness_unread :
    (let s := start 0 [4, 2, 5, 2, 5];
      (nextOf (step (s.withUnread ⟨1, 0, 0, 1⟩ ⟨7, 1, 2, 3, 4, 5, 6⟩))).map (fun t => (t.flags, t.fault)) =
        some (⟨1, 1, 1, 0⟩, ⟨7, 1, 2, 3, 4, 5, 6⟩)) ∧
      (let s := start 0 [11];
        (nextOf (step (s.withUnread ⟨1, 0, 0, 1⟩ ⟨7, 1, 2, 3, 4, 5, 6⟩))).map (fun t => (t.flags, t.fault)) =
          some (⟨1, 0, 0, 1⟩, ⟨2, 0, 11, 0, 0, 0, 0⟩)) ∧
      (let s := start 0 [5, 2, 7];
        (nextOf (step (s.withUnread ⟨1, 0, 0, 1⟩ ⟨7, 1, 2, 3, 4, 5, 6⟩))).map (fun t => (t.flags, t.fault)) =
          some (⟨1, 0, 0, 1⟩, ⟨7, 1, 2, 3, 4, 5, 6⟩)) := by decide

/-- ResetMeetsWf: a faulted state with a full Stack word, which meets the invariant and so does its reset. -/
theorem test_witness_reset_wf :
    ((stackAt State.reset 255 7).takeFault (.illegalOpcode 11)).wf ∧
      (hostReset ((stackAt State.reset 255 7).takeFault (.illegalOpcode 11))).wf := by decide

end Sys2Proof.Tests
end

/-! The invariant of the machine (00_scope.md): what a step can change of the fields it speaks of, and that steps, runs and reset
keep it. -/

namespace Sys2Proof.Machine

/-! ## What a write of the Stack leaves, field by field -/

@[simp] theorem State.setSegment_stack_stack (s : State) (m : Mem) : (s.setSegment .stack m).stack = m := rfl
@[simp] theorem State.setSegment_stack_data (s : State) (m : Mem) : (s.setSegment .stack m).data = s.data := rfl
@[simp] theorem State.setSegment_stack_code (s : State) (m : Mem) : (s.setSegment .stack m).code = s.code := rfl

/-! ## What a completed instruction does to the fields of the invariant -/

/-- Code, Data, the symbol table and the capacities are inputs of an instruction only (R8, R36, R37). -/
theorem Completed.image_eq {i : Instr} {s t : State} (h : Completed i s t) :
    t.code = s.code ∧ t.data = s.data ∧ t.symtab = s.symtab ∧ t.cfg = s.cfg := by
  cases h <;> simp

/-- The Stack is as it was, or PUSH, POP or CALL wrote one word of it, below the capacity (R20, R33). -/
theorem Completed.stack_eq_or_write {i : Instr} {s t : State} (h : Completed i s t) :
    t.stack = s.stack ∨ ∃ a v, a < s.cfg.stackWords ∧ t.stack = Mem.write s.stack a v := by
  cases h with
  | push _ _ v _ hs => exact .inr ⟨_, v, hs, rfl⟩
  | pop _ _ hs => exact .inr ⟨_, 0, hs, by simp⟩
  | call _ _ _ hs => exact .inr ⟨_, s.reg .pc + 3, hs, rfl⟩
  | none | halt | jmp | mov | add | sub | assert | cmp => exact .inl (by simp)

/-- An instruction that completes leaves the run state, or halts (R100, R101). -/
theorem Completed.run_eq_or_halted {i : Instr} {s t : State} (h : Completed i s t) :
    t.run = s.run ∨ t.run = .halted := by
  cases h with
  | none | halt => exact .inr rfl
  | jmp | mov | add | sub | push | pop | call | assert | cmp => exact .inl (by simp)

/-- Only a fault latches a record (R17, R135). -/
theorem Completed.fault_eq {i : Instr} {s t : State} (h : Completed i s t) : t.fault = s.fault := by
  cases h <;> simp

/-! ## What a step does to them -/

theorem step_image_eq {s t : State} (h : step s = .next t) :
    t.code = s.code ∧ t.data = s.data ∧ t.symtab = s.symtab ∧ t.cfg = s.cfg := by
  obtain ⟨-, rfl⟩ | ⟨-, ⟨f, rfl⟩ | ⟨i, -, hc⟩⟩ := step_cases h
  · exact ⟨rfl, rfl, rfl, rfl⟩
  · simp
  · exact hc.image_eq

theorem step_stack_eq_or_write {s t : State} (h : step s = .next t) :
    t.stack = s.stack ∨ ∃ a v, a < s.cfg.stackWords ∧ t.stack = Mem.write s.stack a v := by
  obtain ⟨-, rfl⟩ | ⟨-, ⟨f, rfl⟩ | ⟨i, -, hc⟩⟩ := step_cases h
  · exact .inl rfl
  · exact .inl (State.takeFault_stack s f)
  · exact hc.stack_eq_or_write

/-! ## The parts of the invariant -/

/-- Entering FAULTED makes the record valid, whatever it was before (R131, R136). -/
theorem State.takeFault_recordValid (s : State) (f : EngineFault) : (s.takeFault f).recordValid := by
  refine ⟨fun _ => ?_, fun hr => absurd rfl hr⟩
  rw [State.takeFault_reg]
  exact record_cause (s.reg .ar) f

/-- Outside FAULTED a valid record is the empty one, and nothing else is asked of it. -/
theorem State.recordValid_of_fault_empty {s : State} (hr : s.run ≠ .faulted) (hf : s.fault = FaultRecord.empty) :
    s.recordValid :=
  ⟨fun h => absurd h hr, fun _ => hf⟩

theorem step_recordValid {s t : State} (hs : s.recordValid) (h : step s = .next t) : t.recordValid := by
  obtain ⟨-, rfl⟩ | ⟨hr, ⟨f, rfl⟩ | ⟨i, -, hc⟩⟩ := step_cases h
  · exact hs
  · exact s.takeFault_recordValid f
  · have ht : t.run ≠ .faulted := by
      rcases hc.run_eq_or_halted with h | h <;> simp [h, hr]
    exact State.recordValid_of_fault_empty ht (hc.fault_eq.trans (hs.2 (by simp [hr])))

/-- A segment's form depends on its content and its capacity only. -/
theorem State.segmentWf_congr {s t : State} {seg : Segment} (hm : t.segment seg = s.segment seg)
    (hc : t.capacity seg = s.capacity seg) (hs : s.segmentWf seg) : t.segmentWf seg := by
  unfold State.segmentWf
  rw [hm, hc]
  exact hs

/-- Data and Code do not change, and the one word that a step can write in the Stack lies below the capacity. -/
theorem step_segmentWf {s t : State} {seg : Segment} (hs : s.segmentWf seg) (h : step s = .next t) : t.segmentWf seg := by
  obtain ⟨hcode, hdata, -, hcfg⟩ := step_image_eq h
  have hcap : t.capacity seg = s.capacity seg := by simp [State.capacity, hcfg]
  cases seg with
  | data => exact State.segmentWf_congr hdata hcap hs
  | code => exact State.segmentWf_congr hcode hcap hs
  | stack =>
    rcases step_stack_eq_or_write h with hst | ⟨a, v, ha, hst⟩
    · exact State.segmentWf_congr hst hcap hs
    · obtain ⟨hform, hbound⟩ := hs
      unfold State.segmentWf
      rw [hcap, show t.segment .stack = Mem.write s.stack a v from hst]
      exact ⟨Mem.write_wf hform a v, Mem.write_within hbound ha v⟩

/-! ## Runs -/

/-- A run of one more step is a step and then the run. -/
theorem coreRun_succ_eq_next {M : Host.Core} {n : Nat} {s t : M.State} (h : M.run (n + 1) s = .next t) :
    ∃ u, M.step s = .next u ∧ M.run n u = .next t := by
  rw [Host.Core.run] at h
  split at h
  · next u hu => exact ⟨u, hu, h⟩
  · cases h
  · cases h

/-- What every step keeps, every run keeps. -/
theorem coreRun_keeps {M : Host.Core} {P : M.State → Prop} (hstep : ∀ s t, P s → M.step s = .next t → P t) {n : Nat}
    {s t : M.State} (hs : P s) (h : M.run n s = .next t) : P t := by
  induction n generalizing s with
  | zero => cases h; exact hs
  | succ n ih =>
    obtain ⟨u, hu, hrun⟩ := coreRun_succ_eq_next h
    exact ih (hstep s u hs hu) hrun

/-! ## The obligations -/

/-- Settles O31: of what the invariant speaks of, a step can change the Stack, AR, the run state and the record only. -/
theorem stepKeepsWf : Obligations.StepKeepsWf := by
  intro s t hs h
  obtain ⟨hcfg, ⟨hstack, hdata, hcode⟩, hsym, hrec⟩ := hs
  obtain ⟨-, -, hsymtab, hcfg_eq⟩ := step_image_eq h
  exact ⟨hcfg_eq ▸ hcfg, ⟨step_segmentWf hstack h, step_segmentWf hdata h, step_segmentWf hcode h⟩,
    hsymtab ▸ hsym, step_recordValid hrec h⟩

/-- Settles O32, by induction on the number of steps from O31. -/
theorem runKeepsWf : Obligations.RunKeepsWf :=
  fun _ _ _ hs h => coreRun_keeps (M := core) stepKeepsWf hs h

/-- Settles O33: neither a fault nor any completed instruction writes one of the four. -/
theorem stepKeepsImage : Obligations.StepKeepsImage :=
  fun _ _ h => step_image_eq h

/-- Settles O30: reset empties the Stack and the record and keeps the rest. -/
theorem resetMeetsWf : Obligations.ResetMeetsWf := by
  refine ⟨by decide, fun s hs => ?_⟩
  obtain ⟨hcfg, ⟨-, hdata, hcode⟩, hsym, -⟩ := hs
  have hstack : (hostReset s).segmentWf .stack := ⟨⟨.nil, nofun⟩, nofun⟩
  exact ⟨hcfg, ⟨hstack, hdata, hcode⟩, hsym, State.recordValid_of_fault_empty nofun rfl⟩

end Sys2Proof.Machine

/-! The architectural state (10_state.md): the numbering tables, reset, the symbol lookup, what an instruction can do to the run
state, the flags, the registers and the memory, and what no step reads. -/

namespace Sys2Proof

/-! ## The numbering tables, as functions of every word -/

theorem Opcode.ofWord_eq_some_iff {w : Word} {op : Opcode} : Opcode.ofWord w = some op ↔ w = op.number :=
  ⟨fun h => (Opcode.number_of_ofWord h).symm, fun h => h ▸ Opcode.ofWord_number op⟩

theorem Reg.ofOrdinal_eq_some_iff {v : Word} {r : Reg} : Reg.ofOrdinal v = some r ↔ v = r.ordinal :=
  ⟨fun h => (Reg.ordinal_of_ofOrdinal h).symm, fun h => h ▸ Reg.ofOrdinal_ordinal r⟩

theorem Kind.ofWord_eq_some_iff {w : Word} {k : Kind} : Kind.ofWord w = some k ↔ w = k.word :=
  ⟨fun h => (Kind.word_of_ofWord h).symm, fun h => h ▸ Kind.ofWord_word k⟩

/-- A lookup by number, where the numbers are the words below `n`, finds nothing exactly at the words from `n` on. -/
theorem lookup_eq_none_iff {α : Type} {look : Word → Option α} {number : α → Word} {n : Nat}
    (hfound : ∀ {w a}, look w = some a ↔ w = number a) (hlt : ∀ a, (number a).toNat < n)
    (hbelow : ∀ j < n, ∃ a, number a = BitVec.ofNat 32 j) (w : Word) : n ≤ w.toNat ↔ look w = none := by
  rw [Option.eq_none_iff_forall_ne_some]
  constructor
  · intro hw a ha
    have := hlt a
    rw [← hfound.1 ha] at this
    omega
  · intro hnone
    by_contra hw
    obtain ⟨a, ha⟩ := hbelow w.toNat (by omega)
    exact hnone a (hfound.2 (by simp [ha]))

/-- The words that name no instruction are those from 11 on (R58). -/
theorem Opcode.ofWord_eq_none_iff (w : Word) : 11 ≤ w.toNat ↔ Opcode.ofWord w = Option.none := by
  refine lookup_eq_none_iff Opcode.ofWord_eq_some_iff (fun op => ?_) (fun j hj => ?_) w
  · cases op <;> decide
  · exact ⟨Opcode.all[j]'hj, by interval_cases j <;> rfl⟩

/-- The words that name no register are those from 13 on (R10). -/
theorem Reg.ofOrdinal_eq_none_iff (v : Word) : 13 ≤ v.toNat ↔ Reg.ofOrdinal v = none := by
  refine lookup_eq_none_iff Reg.ofOrdinal_eq_some_iff (fun r => ?_) (fun j hj => ?_) v
  · cases r <;> decide
  · exact ⟨Reg.all[j]'hj, by interval_cases j <;> rfl⟩

end Sys2Proof

namespace Sys2Proof.Machine

/-! ## What an update leaves of the registers, the memory and the agreement of PC and AR -/

theorem State.reg_advance_of_ne {s : State} {op : Opcode} {r : Reg} (hpc : r ≠ .pc) (har : r ≠ .ar) :
    (s.advance op).reg r = s.reg r := by
  rw [State.reg_advance, if_neg (by simp [hpc, har])]

theorem State.reg_transfer_of_ne {s : State} {target : Word} {r : Reg} (hpc : r ≠ .pc) (har : r ≠ .ar) :
    (s.transfer target).reg r = s.reg r := by
  rw [State.reg_transfer, if_neg (by simp [hpc, har])]

theorem State.lockstep_advance {s : State} {op : Opcode} (h : s.lockstep) : (s.advance op).lockstep := by
  simp only [State.lockstep, State.reg_advance, reduceCtorEq, or_true, true_or, if_true]
  rw [h]

theorem State.lockstep_transfer (s : State) (target : Word) : (s.transfer target).lockstep := by
  simp [State.lockstep, State.reg_transfer]

theorem State.lockstep_setReg {s : State} {d : Reg} {v : Word} (hpc : d ≠ .pc) (har : d ≠ .ar) (h : s.lockstep) :
    (s.setReg d v).lockstep := by
  simpa [State.lockstep, State.reg_setReg_of_ne, hpc.symm, har.symm] using h

/-- A write of one Stack word is seen at that word only (R20, R41). -/
theorem sameMemoryBut_write_stack {s : State} (h : Mem.wf s.stack) (sp v : Word) :
    sameMemoryBut sp s (s.setSegment .stack (Mem.write s.stack sp.toNat v)) := by
  intro seg a hne
  cases seg with
  | data | code => rfl
  | stack =>
    have ha : a.toNat ≠ sp.toNat := by simpa [BitVec.toNat_inj] using hne
    unfold memRead
    rw [State.setSegment_capacity, State.segment_setSegment, if_pos rfl, Mem.read_write h.1, if_neg ha]
    rfl

/-! ## What a completed instruction does to the run state, the flags, the registers and the memory -/

/-- NONE and HALT halt the run, and no other instruction that completes writes the run state (R16). -/
theorem Completed.run_eq {i : Instr} {s t : State} (h : Completed i s t) :
    t.run = if i = .none ∨ i = .halt then .halted else s.run := by
  cases h with
  | none | halt => rfl
  | jmp | mov | add | sub | push | pop | call | assert | cmp => simp

/-- CMP alone writes flags (R15). -/
theorem Completed.flags_eq {i : Instr} {s t : State} (h : Completed i s t) (hi : i.opcode ≠ .cmp) : t.flags = s.flags := by
  cases h with
  | cmp => exact absurd rfl hi
  | none | halt | jmp | mov | add | sub | push | pop | call | assert => simp

/-- No instruction writes S, CMP included (R15, R126). -/
theorem Completed.flag_s_eq {i : Instr} {s t : State} (h : Completed i s t) : t.flag .s = s.flag .s := by
  by_cases hi : i.opcode = .cmp
  · cases h with
    | cmp => rfl
    | none | halt | jmp | mov | add | sub | push | pop | call | assert => cases hi
  · exact congrArg Flags.s (h.flags_eq hi)

/-- PC and AR advance or are transferred together, after any write of a register that is neither (R14). -/
theorem Completed.lockstep {i : Instr} {s t : State} (h : Completed i s t) (hs : s.lockstep)
    (hpc : destinationOf i ≠ some .pc) (har : destinationOf i ≠ some .ar) : t.lockstep := by
  cases h with
  | jmp | call => exact State.lockstep_transfer _ _
  | none | halt => exact State.lockstep_advance (s := { s with run := .halted }) hs
  | assert => exact State.lockstep_advance hs
  | cmp => exact State.lockstep_advance (by simpa [State.lockstep] using hs)
  | mov | add | sub =>
    exact State.lockstep_advance (State.lockstep_setReg (mt (congrArg some) hpc) (mt (congrArg some) har) hs)
  | push =>
    exact State.lockstep_advance (State.lockstep_setReg nofun nofun (by simpa [State.lockstep] using hs))
  | pop =>
    exact State.lockstep_advance (State.lockstep_setReg (mt (congrArg some) hpc) (mt (congrArg some) har)
      (State.lockstep_setReg nofun nofun (by simpa [State.lockstep] using hs)))

/-- A register that is neither PC, AR, the destination, nor ST under PUSH, POP and CALL keeps its value (R11, R12). -/
theorem Completed.reg_eq {i : Instr} {s t : State} {r : Reg} (h : Completed i s t) (hdst : destinationOf i ≠ some r)
    (hpc : r ≠ .pc) (har : r ≠ .ar) (hst : r = .st → i.opcode ≠ .push ∧ i.opcode ≠ .pop ∧ i.opcode ≠ .call) :
    t.reg r = s.reg r := by
  cases h with
  | none | halt | assert => exact State.reg_advance_of_ne hpc har
  | cmp => rw [State.reg_advance_of_ne hpc har, State.compareFlags_reg]
  | jmp => exact State.reg_transfer_of_ne hpc har
  | mov | add | sub =>
    have hd := Ne.symm (mt (congrArg some) hdst)
    rw [State.reg_advance_of_ne hpc har, State.reg_setReg_of_ne _ hd]
  | push =>
    have hne : r ≠ .st := fun e => (hst e).1 rfl
    rw [State.reg_advance_of_ne hpc har, State.reg_setReg_of_ne _ hne, State.setSegment_reg]
  | pop =>
    have hne : r ≠ .st := fun e => (hst e).2.1 rfl
    have hd := Ne.symm (mt (congrArg some) hdst)
    rw [State.reg_advance_of_ne hpc har, State.reg_setReg_of_ne _ hd, State.reg_setReg_of_ne _ hne, State.setSegment_reg]
  | call =>
    have hne : r ≠ .st := fun e => (hst e).2.2 rfl
    rw [State.reg_transfer_of_ne hpc har, State.reg_setReg_of_ne _ hne, State.setSegment_reg]

/-- PUSH and CALL write the Stack word at ST, POP the one below it, and no other instruction writes a word (R20). -/
theorem Completed.memory_cases {i : Instr} {s t : State} (h : Completed i s t) (hwf : Mem.wf s.stack) :
    ((i.opcode = .push ∨ i.opcode = .call) ∧ sameMemoryBut (s.reg .st) s t) ∨
      (i.opcode = .pop ∧ sameMemoryBut (s.reg .st - 1) s t) ∨ sameMemory s t := by
  cases h with
  | push _ _ v => exact .inl ⟨.inl rfl, fun seg a hne => by simpa using sameMemoryBut_write_stack hwf _ v seg a hne⟩
  | call => exact .inl ⟨.inr rfl, fun seg a hne => by simpa using sameMemoryBut_write_stack hwf _ _ seg a hne⟩
  | pop => exact .inr (.inl ⟨rfl, fun seg a hne => by simpa using sameMemoryBut_write_stack hwf _ 0 seg a hne⟩)
  | none | halt => exact .inr (.inr fun seg a => (memRead_advance ..).trans (by cases seg <;> rfl))
  | jmp | mov | add | sub | assert | cmp => exact .inr (.inr fun seg a => by simp)

/-! ## A change of the state that no instruction sees

The kinds of the symbols, the flags and the fault record: a step of a state with such a change `g` is the change of the step,
where a CMP's write of flags turns `g` into `gc`, and a fault is the same fault. -/

/-- The change `g` gives every read the same answer, and every write of a register, of a segment or of the run state commutes
with it. -/
structure Unseen (g : State → State) : Prop where
  run : ∀ s, (g s).run = s.run
  reg : ∀ s r, (g s).reg r = s.reg r
  capacity : ∀ s seg, (g s).capacity seg = s.capacity seg
  segment : ∀ s seg, (g s).segment seg = s.segment seg
  symLoc : ∀ s i, symLoc i (g s) = symLoc i s
  setReg : ∀ s r v, (g s).setReg r v = g (s.setReg r v)
  setSegment : ∀ s seg m, (g s).setSegment seg m = g (s.setSegment seg m)
  halt : ∀ s, { g s with run := .halted } = g { s with run := .halted }

namespace Unseen

variable {g gc : State → State}

theorem memRead (hg : Unseen g) (seg : Segment) (a : Word) (s : State) :
    Machine.memRead seg a (g s) = Machine.memRead seg a s := memRead_congr (hg.capacity s seg) (hg.segment s seg)

theorem resolve (hg : Unseen g) (o : Operand) (s : State) : Machine.resolve o (g s) = Machine.resolve o s := by
  cases o <;> simp only [Machine.resolve, hg.reg, hg.symLoc, hg.memRead]

theorem fetch (hg : Unseen g) (s : State) : Machine.fetch (g s) = Machine.fetch s := by
  simp only [Machine.fetch, hg.reg, hg.memRead]

theorem advance (hg : Unseen g) (s : State) (op : Opcode) : (g s).advance op = g (s.advance op) := by
  simp only [State.advance, hg.reg, hg.setReg]

theorem transfer (hg : Unseen g) (s : State) (target : Word) : (g s).transfer target = g (s.transfer target) := by
  simp only [State.transfer, hg.setReg]

end Unseen

/-- What `g` becomes when an instruction completes: `gc` after a CMP, itself after any other. -/
def afterInstr (g gc : State → State) : Instr → State → State
  | .cmp _ _ => gc
  | _ => g

/-- Two results that fail with the same fault, or complete in a state that is not FAULTED and in its image under `g`. -/
inductive Mirrored (g : State → State) : Except EngineFault State → Except EngineFault State → Prop where
  | error (f : EngineFault) : Mirrored g (.error f) (.error f)
  | ok {t : State} (ht : t.run ≠ .faulted) : Mirrored g (.ok t) (.ok (g t))

theorem Mirrored.bind {g : State → State} {α : Type} {x : Except EngineFault α} {k k' : α → Except EngineFault State}
    (h : ∀ a, Mirrored g (k a) (k' a)) : Mirrored g (x >>= k) (x >>= k') := by
  cases x with
  | ok a => exact h a
  | error f => exact .error f

/-- A write is in bounds on both sides or on neither, and it keeps the run state. -/
theorem Mirrored.bind_memWrite {g : State → State} (hg : Unseen g) {seg : Segment} {a v : Word} {s : State}
    {k k' : State → Except EngineFault State} (h : ∀ u, u.run = s.run → Mirrored g (k u) (k' (g u))) :
    Mirrored g (memWrite seg a v s >>= k) (memWrite seg a v (g s) >>= k') := by
  by_cases ha : s.capacity seg ≤ a.toNat
  · rw [memWrite_of_ge ha, memWrite_of_ge (by rwa [hg.capacity])]
    exact .error _
  · rw [memWrite_of_lt (by omega), memWrite_of_lt (by rw [hg.capacity]; omega), hg.segment, hg.setSegment]
    exact h _ (by simp)

/-- An instruction in the changed state fails alike, or completes in the changed state: every read of its meaning is one of
`Unseen`'s, and every write but a CMP's of flags is too. -/
theorem exec_mirrored {g gc : State → State} (hg : Unseen g) (hgc : Unseen gc)
    (hcmp : ∀ s d, (g s).compareFlags d = gc (s.compareFlags d)) (i : Instr) {s : State} (hr : s.run = .running) :
    ∃ r r', exec i s = complete s r ∧ exec i (g s) = complete (g s) r' ∧ Mirrored (afterInstr g gc i) r r' := by
  have done {g : State → State} (t : State) (ht : t.run ≠ .faulted) {u : State} (hu : u = g t) :
    Mirrored g (.ok t) (.ok u) := hu ▸ .ok ht
  cases i with
  | none | halt => exact ⟨_, _, rfl, rfl, done _ (by simp) (by simp only [hg.halt, hg.advance, afterInstr])⟩
  | jmp target =>
    refine ⟨_, _, rfl, rfl, .bind fun i => ?_⟩
    rw [hg.symLoc]
    exact .bind fun t => done _ (by simp [hr]) (hg.transfer ..)
  | mov dst src | add dst src | sub dst src =>
    refine ⟨_, _, rfl, rfl, .bind fun d => .bind fun o => ?_⟩
    rw [hg.resolve]
    exact .bind fun v => done _ (by simp [hr]) (by simp only [hg.reg, hg.setReg, hg.advance, afterInstr])
  | push src =>
    refine ⟨_, _, rfl, rfl, .bind fun o => ?_⟩
    rw [hg.resolve, hg.reg]
    exact .bind fun v => .bind_memWrite hg fun u hu =>
      done _ (by simp [hu, hr]) (by simp only [hg.setReg, hg.advance])
  | pop dst =>
    refine ⟨_, _, rfl, rfl, .bind fun d => ?_⟩
    simp only [hg.reg, hg.memRead]
    exact .bind fun v => .bind_memWrite hg fun u hu =>
      done _ (by simp [hu, hr]) (by simp only [hg.setReg, hg.advance])
  | call target =>
    refine ⟨_, _, rfl, rfl, .bind fun i => ?_⟩
    rw [hg.symLoc, hg.reg, hg.reg]
    exact .bind fun t => .bind_memWrite hg fun u hu =>
      done _ (by simp [hu, hr]) (by simp only [hg.setReg, hg.transfer])
  | assert a b =>
    refine ⟨_, _, rfl, rfl, .bind fun ra => .bind fun o => ?_⟩
    rw [hg.resolve, hg.reg]
    refine .bind fun bv => ?_
    split
    · exact done _ (by simp [hr]) (hg.advance ..)
    · exact .error _
  | cmp a b =>
    refine ⟨_, _, rfl, rfl, .bind fun oa => .bind fun ob => ?_⟩
    rw [hg.resolve, hg.resolve]
    exact .bind fun av => .bind fun bv => done _ (by simp [hr]) (by simp only [hcmp, hgc.advance, afterInstr])

/-- In HALTED and FAULTED a step changes nothing (R80). -/
theorem step_of_not_running {s : State} (hr : s.run ≠ .running) : step s = .next s := by
  unfold step
  split
  · next h => exact absurd h hr
  · rfl
  · rfl

/-- A step of the changed state takes the same fault, or completes the same instruction in the changed state (R80). -/
theorem step_unseen {g gc : State → State} (hg : Unseen g) (hgc : Unseen gc)
    (hcmp : ∀ s d, (g s).compareFlags d = gc (s.compareFlags d)) {s t : State} (h : step s = .next t) :
    (s.run ≠ .running ∧ t = s ∧ step (g s) = .next (g s)) ∨
      (s.run = .running ∧ ∃ f, t = s.takeFault f ∧ step (g s) = .next ((g s).takeFault f)) ∨
      (s.run = .running ∧ ∃ i, fetch s = .ok i ∧ Completed i s t ∧ step (g s) = .next (afterInstr g gc i t)) := by
  by_cases hr : s.run = .running
  · have hgr : (g s).run = .running := (hg.run s).trans hr
    cases hf : fetch s with
    | error f =>
      obtain rfl : s.takeFault f = t := by simpa [step_of_fetch_fault hr hf] using h
      exact .inr (.inl ⟨hr, f, rfl, step_of_fetch_fault hgr ((hg.fetch s).trans hf)⟩)
    | ok i =>
      rw [step_of_fetch hr hf] at h
      rw [step_of_fetch hgr ((hg.fetch s).trans hf)]
      obtain ⟨r, r', he, he', hm⟩ := exec_mirrored hg hgc hcmp i hr
      rw [he']
      have hcases := exec_cases h
      rw [he] at h
      cases hm with
      | error f =>
        obtain rfl : s.takeFault f = t := by simpa using h
        exact .inr (.inl ⟨hr, f, rfl, rfl⟩)
      | @ok u hu =>
        obtain rfl : u = t := by simpa using h
        obtain ⟨f, rfl⟩ | hc := hcases
        · exact absurd rfl hu
        · exact .inr (.inr ⟨hr, i, rfl, hc, rfl⟩)
  · rw [step_of_not_running hr] at h
    cases h
    exact .inl ⟨hr, rfl, step_of_not_running (by rwa [hg.run])⟩

/-! ## The kinds of the symbols, the flags and the fault record are not seen -/

theorem symLoc_withKinds (s : State) (k : SymbolEntry → SymbolKind) (i : Word) :
    symLoc i (s.withKinds k) = symLoc i s := by
  simp only [symLoc, State.withKinds, List.getElem?_map]
  cases s.symtab[i.toNat]? <;> rfl

theorem unseen_withKinds (k : SymbolEntry → SymbolKind) : Unseen fun s => s.withKinds k where
  run _ := rfl
  reg _ r := by cases r <;> rfl
  capacity _ seg := by cases seg <;> rfl
  segment _ seg := by cases seg <;> rfl
  symLoc s i := symLoc_withKinds s k i
  setReg _ r _ := by cases r <;> rfl
  setSegment _ seg _ := by cases seg <;> rfl
  halt _ := rfl

/-- The flags after a CMP from the flags `fl`, where `written` holds the ones it wrote: S is kept (R15, R126). -/
def Flags.compared (fl written : Flags) : Flags := { fl with zf := written.zf, pf := written.pf, sf := written.sf }

/-- Other flags and another record in their place, where what stands for the flags depends on the flags at most. -/
theorem unseen_withUnread (fl : Flags → Flags) (fr : FaultRecord) : Unseen fun s => s.withUnread (fl s.flags) fr where
  run _ := rfl
  reg _ r := by cases r <;> rfl
  capacity _ seg := by cases seg <;> rfl
  segment _ seg := by cases seg <;> rfl
  symLoc _ _ := rfl
  setReg _ r _ := by cases r <;> rfl
  setSegment _ seg _ := by cases seg <;> rfl
  halt _ := rfl

theorem comparesFlags_iff {s t : State} :
    comparesFlags s t = true ↔ s.run = .running ∧ t.run = .running ∧ ∃ a b, fetch s = .ok (.cmp a b) := by
  unfold comparesFlags
  split
  · next hs ht hf => simp [hs, ht, hf]
  · next hno => simpa using fun hs ht a b hf => hno a b hs ht hf

/-- The flags a completed instruction leaves: what a CMP wrote over the old ones, or else the old ones (R15). -/
theorem withUnread_flagsLeft {s t : State} {i : Instr} (hr : s.run = .running) (hf : fetch s = .ok i)
    (hc : Completed i s t) (fl : Flags) (fr : FaultRecord) :
    t.withUnread (flagsLeft s t fl) fr =
      afterInstr (fun s => s.withUnread fl fr) (fun t => t.withUnread (fl.compared t.flags) fr) i t := by
  cases i with
  | cmp a b =>
    have hcmp : comparesFlags s t = true := comparesFlags_iff.2 ⟨hr, by simpa [hr] using hc.run_eq, a, b, hf⟩
    rw [flagsLeft, if_pos hcmp]
    rfl
  | none | halt | jmp | mov | push | pop | add | sub | call | assert =>
    have hcmp : ¬ comparesFlags s t = true := fun h => by
      obtain ⟨-, -, a, b, hab⟩ := comparesFlags_iff.1 h
      simp [hf] at hab
    rw [flagsLeft, if_neg hcmp]
    rfl

/-! ## The obligations -/

/-- Settles O43, from the tables read both ways. -/
theorem numberingTables : Obligations.NumberingTables :=
  ⟨rfl, rfl, rfl, fun _ _ => Opcode.ofWord_eq_some_iff, Opcode.ofWord_eq_none_iff, fun _ _ => Reg.ofOrdinal_eq_some_iff,
    Reg.ofOrdinal_eq_none_iff, fun _ _ => Kind.ofWord_eq_some_iff⟩

/-- Settles O42, by running the decoder on each list of words. -/
theorem wordsOfTheSpecDecode : Obligations.WordsOfTheSpecDecode :=
  ⟨rfl, rfl, rfl, rfl, rfl, rfl, rfl, rfl, rfl, rfl, rfl⟩

/-- Settles O21, from the one lookup of the table that `symLoc` makes. -/
theorem symbolLookup : Obligations.SymbolLookup := by
  intro s i
  refine ⟨fun h => ?_, fun e he hr => ?_, fun e he hr => ?_⟩
  · rw [symLoc, List.getElem?_eq_none h]
  · simp [symLoc, he, hr]
  · simp [symLoc, he, hr]

/-- Settles O44: reset writes every register, flag and record field and empties the Stack, and keeps the rest. -/
theorem resetValues : Obligations.ResetValues := by
  intro s
  refine ⟨fun r => ?_, fun f => ?_, rfl, rfl, fun a ha => memRead_of_lt ha, fun a => rfl, fun a => rfl, rfl, rfl⟩
  · cases r <;> rfl
  · cases f <;> rfl

/-- Settles O5: of the completed instructions NONE and HALT alone write the run state, and they make it HALTED. -/
theorem runStateTransitions : Obligations.RunStateTransitions := by
  refine fun s => ⟨fun t h => ⟨fun hr => ?_, fun hr => ⟨⟨fun ht => ?_, ?_⟩, fun ht => ?_, ?_⟩⟩, rfl⟩
  · rw [step_of_not_running hr] at h
    exact (Host.Outcome.next.inj h).symm
  · obtain ⟨hn, -⟩ | ⟨-, ⟨f, rfl⟩ | ⟨i, hf, hc⟩⟩ := step_cases h
    · exact absurd hr hn
    · cases ht
    · have hi : i = .none ∨ i = .halt := by
        by_contra hi
        simp [hc.run_eq, hi, hr] at ht
      rcases hi with rfl | rfl <;> simp [hf]
  · rintro (hf | hf) <;>
    · rw [step_of_fetch hr hf] at h
      cases h
      rfl
  · obtain ⟨hn, -⟩ | ⟨-, hfault | ⟨i, -, hc⟩⟩ := step_cases h
    · exact absurd hr hn
    · exact hfault
    · rcases hc.run_eq_or_halted with h | h <;> simp [h, hr] at ht
  · rintro ⟨f, rfl⟩
    rfl

/-- Settles O34: a fault writes no flag, and of the completed instructions CMP alone does. -/
theorem onlyCmpWritesFlags : Obligations.OnlyCmpWritesFlags := by
  intro i s t h
  obtain ⟨f, rfl⟩ | hc := exec_cases h
  · exact ⟨rfl, fun _ f => by cases f <;> rfl⟩
  · exact ⟨hc.flag_s_eq, fun hi f => by simp [State.flag, hc.flags_eq hi]⟩

/-- Settles O36: a fault writes no register, and a completed instruction moves PC and AR alike. -/
theorem lockstepIsKept : Obligations.LockstepIsKept := by
  intro i s t hs hpc har h
  obtain ⟨f, rfl⟩ | hc := exec_cases h
  · exact hs
  · exact hc.lockstep hs hpc har

/-- Settles O37: a fault writes no register, and a completed instruction the ones named only. -/
theorem registersChangeOnlyAsNamed : Obligations.RegistersChangeOnlyAsNamed := by
  intro i s t r h hdst hpc har hst
  obtain ⟨f, rfl⟩ | hc := exec_cases h
  · exact s.takeFault_reg f r
  · exact hc.reg_eq hdst hpc har hst

/-- Settles O39: a word that changed is the one that PUSH, CALL or POP wrote. -/
theorem onlyStackInstructionsWriteMemory : Obligations.OnlyStackInstructionsWriteMemory := by
  intro i s t seg a hwf h hne
  have only {sp : Word} (hm : sameMemoryBut sp s t) : seg = .stack ∧ a = sp := by
    by_contra hn
    exact hne (hm seg a (by tauto))
  obtain ⟨f, rfl⟩ | hc := exec_cases h
  · exact absurd (memRead_takeFault seg a s f) hne
  · obtain ⟨hi, hm⟩ | ⟨hi, hm⟩ | hm := hc.memory_cases hwf
    · obtain ⟨rfl, rfl⟩ := only hm
      exact ⟨rfl, hi.elim (fun e => .inl ⟨e, rfl⟩) (fun e => .inr (.inl ⟨e, rfl⟩))⟩
    · obtain ⟨rfl, rfl⟩ := only hm
      exact ⟨rfl, .inr (.inr ⟨hi, rfl⟩)⟩
    · exact absurd (hm seg a) hne

/-- Settles O22: the kinds are unseen, and every write leaves them as they are. -/
theorem stepIgnoresSymbolKinds : Obligations.StepIgnoresSymbolKinds := by
  intro s t k h
  have hg := unseen_withKinds k
  obtain ⟨-, rfl, h'⟩ | ⟨-, f, rfl, h'⟩ | ⟨-, i, -, -, h'⟩ := step_unseen hg hg (fun _ _ => rfl) h
  · exact h'
  · exact h'
  · cases i <;> exact h'

/-- Settles O35: the flags and the record are unseen; a fault latches its own record, and a CMP writes its own flags. -/
theorem noStepReadsFlagsOrRecord : Obligations.NoStepReadsFlagsOrRecord := by
  intro s t fl fr h
  obtain ⟨hr, rfl, h'⟩ | ⟨hr, f, rfl, h'⟩ | ⟨hr, i, hf, hc, h'⟩ :=
    step_unseen (unseen_withUnread (fun _ => fl) fr) (unseen_withUnread fl.compared fr) (fun _ _ => rfl) h
  · rw [flagsLeft, if_neg (by simp [comparesFlags_iff, hr]), recordLeft, if_neg (by simp [hr])]
    exact h'
  · rw [flagsLeft, if_neg (by simp [comparesFlags_iff]), recordLeft, if_pos ⟨hr, rfl⟩]
    exact h'
  · have ht : t.run ≠ .faulted := by
      rcases hc.run_eq_or_halted with h | h <;> simp [h, hr]
    rw [recordLeft, if_neg (by simp [ht]), withUnread_flagsLeft hr hf hc]
    exact h'

end Sys2Proof.Machine

/-! The memory (20_memory.md): what a read gives after a write, where an access is out of bounds, what unwritten Code does, what
the host reads, and the microsequence of a step, whose first failing access decides its fault. -/

namespace Sys2Proof

/-! ## What a decoded instruction has read -/

/-- A decoded argument: both of its words were read (R50, R84). -/
theorem readArg_ok {ε : Type} {read : Nat → Except ε Word} {slot : Nat} {a : Arg} (h : readArg read slot = .ok a) :
    ∃ k v, read (1 + 2 * slot) = .ok k ∧ read (2 + 2 * slot) = .ok v ∧ a = Arg.ofWords k v := by
  obtain ⟨k, hk, h⟩ := bind_eq_ok h
  obtain ⟨v, hv, h⟩ := bind_eq_ok h
  exact ⟨k, v, hk, hv, (Except.ok.inj h).symm⟩

/-- A decoded instruction: every word of its size was read (R51, R84). -/
theorem read_ok_of_decodeWith {ε : Type} {read : Nat → Except ε Word} {illegal : Word → ε} {i : Instr}
    (h : decodeWith read illegal = .ok i) : ∀ j < i.size, ∃ w, read j = .ok w := by
  obtain ⟨w, hw, h⟩ := bind_eq_ok h
  have size_one : ∀ j < 1, ∃ w, read j = .ok w := fun j hj => by
    obtain rfl : j = 0 := by omega
    exact ⟨w, hw⟩
  have size_three {a : Arg} (ha : readArg read 0 = .ok a) : ∀ j < 3, ∃ w, read j = .ok w := fun j hj => by
    obtain ⟨k, v, hk, hv, -⟩ := readArg_ok ha
    interval_cases j
    exacts [⟨w, hw⟩, ⟨k, hk⟩, ⟨v, hv⟩]
  have size_five {a b : Arg} (ha : readArg read 0 = .ok a) (hb : readArg read 1 = .ok b) :
      ∀ j < 5, ∃ w, read j = .ok w := fun j hj => by
    obtain ⟨k, v, hk, hv, -⟩ := readArg_ok hb
    by_cases hj3 : j < 3
    · exact size_three ha j hj3
    · interval_cases j
      exacts [⟨k, hk⟩, ⟨v, hv⟩]
  cases hop : Opcode.ofWord w with
  | none => rw [hop] at h; cases h
  | some op =>
    rw [hop] at h
    cases op with
    | none | halt => cases h; exact size_one
    | jmp | push | pop | call =>
      obtain ⟨a, ha, h⟩ := bind_eq_ok h
      cases h
      exact size_three ha
    | mov | cmp | add | sub | assert =>
      obtain ⟨a, ha, h⟩ := bind_eq_ok h
      obtain ⟨b, hb, h⟩ := bind_eq_ok h
      cases h
      exact size_five ha hb

end Sys2Proof

namespace Sys2Proof.Machine

/-! ## The segment operations -/

/-- A word that no write has listed reads as the blank word (R39). -/
theorem Mem.read_of_unlisted {m : Mem} {a : Nat} (h : ∀ c ∈ m, c.1 ≠ a) : Mem.read m a = Mem.blank := by
  induction m with
  | nil => rfl
  | cons c m ih =>
    obtain ⟨hc, hm⟩ := List.forall_mem_cons.1 h
    rw [Mem.read, if_neg hc.symm, ih hm]

/-- A write is seen by a read of the same address of the same segment (R41). -/
theorem memRead_written {seg : Segment} {a v : Word} {s : State} (hwf : Mem.wf (s.segment seg))
    (ha : a.toNat < s.capacity seg) :
    memRead seg a (s.setSegment seg (Mem.write (s.segment seg) a.toNat v)) = .ok v := by
  rw [memRead_of_lt (by rwa [State.setSegment_capacity]), State.segment_setSegment, if_pos rfl, Mem.read_write hwf.1,
    if_pos rfl]

/-- A write is not seen by a read of another segment or another address (R30, R41). -/
theorem memRead_unwritten {seg seg' : Segment} {a b v : Word} {s : State} (hwf : Mem.wf (s.segment seg))
    (hne : seg' ≠ seg ∨ b ≠ a) :
    memRead seg' b (s.setSegment seg (Mem.write (s.segment seg) a.toNat v)) = memRead seg' b s := by
  by_cases hseg : seg' = seg
  · subst hseg
    have hb : b.toNat ≠ a.toNat := by simpa [BitVec.toNat_inj] using hne
    unfold memRead
    rw [State.setSegment_capacity, State.segment_setSegment, if_pos rfl, Mem.read_write hwf.1, if_neg hb]
  · exact memRead_congr (State.setSegment_capacity ..) (by rw [State.segment_setSegment, if_neg hseg])

/-! ## The fetch -/

/-- The opcode word 0 is NONE, which has no argument words to read (R54, R83). -/
theorem fetch_of_zero_word {s : State} (h : memRead .code (s.reg .ar) s = .ok 0) : fetch s = .ok .none := by
  have hread : memRead .code (s.reg .ar + BitVec.ofNat 32 0) s = .ok 0 := by simpa using h
  simp only [fetch, decodeWith, hread, ok_bind, show Opcode.ofWord 0 = some .none from Opcode.ofWord_number .none,
    pure_eq_ok]

/-! ## The read-out port -/

theorem readOut_of_running {s : State} (h : s.run = .running) : readOut s = none := by
  rw [readOut, h]

theorem readOut_of_ended {s : State} (h : s.run ≠ .running) :
    readOut s = some ⟨s.regs, s.flags, s.run, s.fault, s.stack, s.data, s.code⟩ := by
  unfold readOut
  split
  · next hr => exact absurd hr h
  · rfl
  · rfl

/-! ## The first fault of a list of accesses -/

theorem firstFault_eq_findSome? (s : State) (as : List Access) : firstFault s as = as.findSome? (Access.fault s) := by
  induction as with
  | nil => rfl
  | cons a as ih =>
    rw [firstFault, List.findSome?_cons, ih]
    cases a.fault s <;> rfl

@[simp] theorem firstFault_nil (s : State) : firstFault s [] = none := rfl

@[simp] theorem firstFault_cons (s : State) (a : Access) (as : List Access) :
    firstFault s (a :: as) = (a.fault s).or (firstFault s as) := by
  rw [firstFault]
  cases a.fault s <;> rfl

@[simp] theorem firstFault_append (s : State) (as bs : List Access) :
    firstFault s (as ++ bs) = (firstFault s as).or (firstFault s bs) := by
  simp only [firstFault_eq_findSome?, List.findSome?_append]

theorem firstFault_eq_none_iff {s : State} {as : List Access} : firstFault s as = none ↔ ∀ a ∈ as, a.fault s = none := by
  rw [firstFault_eq_findSome?, List.findSome?_eq_none_iff]

theorem Access.fault_read (s : State) (seg : Segment) (a : Word) :
    (Access.read seg a).fault s = if s.capacity seg ≤ a.toNat then some (.outOfBounds seg a) else none := rfl

/-- A write is out of bounds where a read is, with the same fault (R33). -/
@[simp] theorem Access.fault_write (s : State) (seg : Segment) (a v : Word) :
    (Access.write seg a v).fault s = (Access.read seg a).fault s := rfl

theorem Access.fault_lookup (s : State) (i : Word) :
    (Access.lookup i).fault s = if s.hasLocation i then none else some (.unresolvedSymbol i) := by
  cases he : s.symtab[i.toNat]? <;> simp [Access.fault, State.hasLocation, he]

/-- The Code reads of a fetched instruction have all succeeded. -/
theorem firstFault_codeAccesses {s : State} {i : Instr} (h : fetch s = .ok i) : firstFault s (codeAccesses i s) = none := by
  refine firstFault_eq_none_iff.2 fun a ha => ?_
  obtain ⟨j, hj, rfl⟩ := List.mem_map.1 ha
  obtain ⟨w, hw⟩ := read_ok_of_decodeWith h j (List.mem_range.1 hj)
  exact if_neg (Nat.not_le.2 (memRead_ok hw).1)

/-! ## A result that comes after accesses -/

/-- The fault that an access raised, or the result where none did. -/
def faultOr {α : Type} (f : Option EngineFault) (r : Except EngineFault α) : Except EngineFault α :=
  f.elim r .error

@[simp] theorem faultOr_none {α : Type} (r : Except EngineFault α) : faultOr none r = r := rfl
@[simp] theorem faultOr_some {α : Type} (f : EngineFault) (r : Except EngineFault α) : faultOr (some f) r = .error f := rfl

/-- What follows the accesses follows where none failed. -/
@[simp] theorem faultOr_bind {α β : Type} (f : Option EngineFault) (r : Except EngineFault α)
    (k : α → Except EngineFault β) : (faultOr f r >>= k) = faultOr f (r >>= k) := by
  cases f <;> rfl

/-- The earlier accesses come first. -/
@[simp] theorem faultOr_faultOr {α : Type} (f g : Option EngineFault) (r : Except EngineFault α) :
    faultOr f (faultOr g r) = faultOr (f.or g) r := by
  cases f <;> rfl

theorem memRead_eq_faultOr (seg : Segment) (a : Word) (s : State) :
    memRead seg a s = faultOr ((Access.read seg a).fault s) (.ok (Mem.read (s.segment seg) a.toNat)) := by
  rw [memRead, Access.fault_read]
  split <;> rfl

theorem memWrite_eq_faultOr (seg : Segment) (a v : Word) (s : State) :
    memWrite seg a v s =
      faultOr ((Access.read seg a).fault s) (.ok (s.setSegment seg (Mem.write (s.segment seg) a.toNat v))) := by
  rw [memWrite, Access.fault_read]
  split <;> rfl

theorem symLoc_eq_faultOr (i : Word) (s : State) :
    symLoc i s = faultOr ((Access.lookup i).fault s) (.ok (s.locationOf i)) := by
  rw [symLoc_eq, Access.fault_lookup]
  split <;> rfl

/-- Resolving is the operand's accesses and then its value (R46, R88). -/
theorem resolve_eq_faultOr (o : Operand) (s : State) :
    resolve o s = faultOr (firstFault s (resolveAccesses o s)) (.ok (operandValue s o)) := by
  cases o with
  | register r | integer n | address d => rfl
  | symbol i => simp [resolve, resolveAccesses, operandValue, symLoc_eq_faultOr]
  | value i =>
    simp only [resolve, resolveAccesses, operandValue, symLoc_eq_faultOr, memRead_eq_faultOr, faultOr_bind, ok_bind,
      faultOr_faultOr]
    cases he : s.symtab[i.toNat]? with
    | none => simp [Access.fault_lookup, State.hasLocation, he]
    | some e => simp [State.locationOf, he, State.segment]

/-- What uses an operand's value comes after the operand's accesses. -/
theorem resolve_bind_eq_faultOr {α : Type} (o : Operand) (s : State) (k : Word → Except EngineFault α) :
    (resolve o s >>= k) = faultOr (firstFault s (resolveAccesses o s)) (k (operandValue s o)) := by
  rw [resolve_eq_faultOr, faultOr_bind, ok_bind]

/-- What uses a read's word comes after the read. -/
theorem memRead_bind_eq_faultOr {α : Type} (seg : Segment) (a : Word) (s : State) (k : Word → Except EngineFault α) :
    (memRead seg a s >>= k) = faultOr (firstFault s [.read seg a]) (k (Mem.read (s.segment seg) a.toNat)) := by
  simp [memRead_eq_faultOr]

/-- What follows a write comes after the write, whose fault does not depend on the word `w` written. -/
theorem memWrite_bind_eq_faultOr {α : Type} (seg : Segment) (a v w : Word) (s : State) (k : State → Except EngineFault α) :
    (memWrite seg a v s >>= k) =
      faultOr (firstFault s [.write seg a w]) (k (s.setSegment seg (Mem.write (s.segment seg) a.toNat v))) := by
  simp [memWrite_eq_faultOr]

/-- Accesses and what follows them, where that begins with accesses of its own. -/
theorem eq_faultOr_append {α : Type} {s : State} {as bs : List Access} {x y r : Except EngineFault α}
    (hx : x = faultOr (firstFault s as) y) (hy : y = faultOr (firstFault s bs) r) :
    x = faultOr (firstFault s (as ++ bs)) r := by
  rw [hx, hy, faultOr_faultOr, firstFault_append]

/-! ## The microsequence of an instruction -/

/-- What an instruction answers when none of its accesses fails: a completed state, or AssertionFailed of an ASSERT on unequal
words (R46, R125). -/
def EndsUnlessAssertFails (i : Instr) (s : State) (r : Except EngineFault State) : Prop :=
  (∃ t, r = .ok t ∧ t.run ≠ .faulted) ∨
    ∃ ra o, i = .assert (.operand (.register ra)) (.operand o) ∧ s.reg ra ≠ operandValue s o ∧
      r = .error (.assertionFailed ra (s.reg ra) o (operandValue s o))

theorem EndsUnlessAssertFails.ok {i : Instr} {s t : State} (h : t.run ≠ .faulted) :
    EndsUnlessAssertFails i s (.ok t) := .inl ⟨t, rfl, h⟩

/-- A well-formed instruction is its operand accesses in the order of R46, and then an end that makes no access. -/
theorem exec_eq_faultOr {i : Instr} {s : State} (hr : s.run = .running) (hwf : i.wf = true) :
    ∃ r, exec i s = complete s (faultOr (firstFault s (operandAccesses i s)) r) ∧ EndsUnlessAssertFails i s r := by
  cases i with
  | none | halt => exact ⟨_, rfl, .ok (by simp)⟩
  | jmp target =>
    obtain ⟨i, rfl⟩ := isSymbol_iff.1 hwf
    exact ⟨_, congrArg (complete s) (resolve_bind_eq_faultOr (.symbol i) s _), .ok (by simp [hr])⟩
  | call target =>
    obtain ⟨i, rfl⟩ := isSymbol_iff.1 hwf
    exact ⟨_, congrArg (complete s) (eq_faultOr_append (resolve_bind_eq_faultOr (.symbol i) s _)
      (memWrite_bind_eq_faultOr .stack (s.reg .st) _ _ s _)), .ok (by simp [hr])⟩
  | push src =>
    obtain ⟨o, rfl⟩ := isLegal_iff.1 hwf
    exact ⟨_, congrArg (complete s) (eq_faultOr_append (resolve_bind_eq_faultOr o s _)
      (memWrite_bind_eq_faultOr .stack (s.reg .st) _ _ s _)), .ok (by simp [hr])⟩
  | pop dst =>
    obtain ⟨d, rfl⟩ := isRegister_iff.1 hwf
    exact ⟨_, congrArg (complete s) (eq_faultOr_append (memRead_bind_eq_faultOr .stack (s.reg .st - 1) s _)
      (memWrite_bind_eq_faultOr .stack (s.reg .st - 1) 0 _ s _)), .ok (by simp [hr])⟩
  | mov dst src | add dst src | sub dst src =>
    obtain ⟨hdst, hsrc⟩ := Bool.and_eq_true_iff.1 hwf
    obtain ⟨d, rfl⟩ := isRegister_iff.1 hdst
    obtain ⟨o, rfl⟩ := isLegal_iff.1 hsrc
    exact ⟨_, congrArg (complete s) (resolve_bind_eq_faultOr o s _), .ok (by simp [hr])⟩
  | cmp a b =>
    obtain ⟨ha, hb⟩ := Bool.and_eq_true_iff.1 hwf
    obtain ⟨oa, rfl⟩ := isLegal_iff.1 ha
    obtain ⟨ob, rfl⟩ := isLegal_iff.1 hb
    exact ⟨_, congrArg (complete s) (eq_faultOr_append (resolve_bind_eq_faultOr oa s _) (resolve_bind_eq_faultOr ob s _)),
      .ok (by simp [hr])⟩
  | assert a b =>
    obtain ⟨ha, hb⟩ := Bool.and_eq_true_iff.1 hwf
    obtain ⟨ra, rfl⟩ := isRegister_iff.1 ha
    obtain ⟨o, rfl⟩ := isLegal_iff.1 hb
    refine ⟨_, congrArg (complete s) (resolve_bind_eq_faultOr o s _), ?_⟩
    split
    · exact .ok (by simp [hr])
    · next hne => exact .inr ⟨ra, o, rfl, hne, rfl⟩

/-! ## The obligations -/

/-- Settles O25: the written word reads back, and a read elsewhere does not see it. -/
theorem readGivesLatestWrite : Obligations.ReadGivesLatestWrite := by
  intro seg a v s t hwf h
  obtain ⟨ha, rfl⟩ := memWrite_ok h
  exact ⟨memRead_written hwf ha, fun _ _ hne => memRead_unwritten hwf hne⟩

/-- Settles O29: the Code reads have succeeded, and the instruction is its operand accesses and then an end without one. -/
theorem microsequenceDecidesTheFault : Obligations.MicrosequenceDecidesTheFault := by
  intro s i hr hf hwf
  obtain ⟨r, hexec, hend⟩ := exec_eq_faultOr hr hwf
  rw [step_of_fetch hr hf, hexec, microsequence, firstFault_append, firstFault_codeAccesses hf, Option.none_or]
  refine ⟨fun f hfault => ?_, fun hnone => ?_⟩
  · rw [hfault, faultOr_some, complete_error]
  · rw [hnone, faultOr_none]
    obtain ⟨t, rfl, ht⟩ | ⟨ra, o, hi, hne, rfl⟩ := hend
    · exact .inl ⟨t, rfl, ht⟩
    · exact .inr ⟨ra, o, hi, hne, rfl⟩

/-- Settles O46: the unlisted word reads as 0, the opcode word of NONE. -/
theorem unwrittenCodeHalts : Obligations.UnwrittenCodeHalts := by
  intro s hr ha hunlisted
  have hread : memRead .code (s.reg .ar) s = .ok 0 :=
    (memRead_of_lt ha).trans (congrArg Except.ok (Mem.read_of_unlisted hunlisted))
  exact ⟨_, step_of_fetch hr (fetch_of_zero_word hread), rfl, rfl, rfl⟩

/-- Settles O24, from the one bounds test of each access. -/
theorem segmentAccessesAreBoundsChecked : Obligations.SegmentAccessesAreBoundsChecked :=
  fun _ _ _ _ => ⟨fun h => ⟨memRead_of_ge h, memWrite_of_ge h⟩, fun h => ⟨_, _, memRead_of_lt h, memWrite_of_lt h⟩⟩

/-- Settles O48: the read-out is closed while RUNNING and gives every field otherwise. -/
theorem readOutOnlyWhenEnded : Obligations.ReadOutOnlyWhenEnded := by
  refine fun s => ⟨rfl, ⟨fun hnone => ?_, readOut_of_running⟩, readOut_of_ended⟩
  by_contra hr
  simp [readOut_of_ended hr] at hnone

end Sys2Proof.Machine

/-! The encoding (30_encoding.md): decoding and encoding as inverses, and the encoder of one line with the order of its
failures. -/

namespace Sys2Proof

/-! ## The arguments of an instruction -/

theorem forall_slots_cons_iff {P : Nat → Arg → Prop} {a : Arg} {as : List Arg} :
    (∀ k x, (a :: as)[k]? = some x → P k x) ↔ P 0 a ∧ ∀ k x, as[k]? = some x → P (k + 1) x := by
  refine ⟨fun h => ⟨h 0 a rfl, fun k => h (k + 1)⟩, fun ⟨h0, hs⟩ k x hx => ?_⟩
  cases k with
  | zero => exact Option.some.inj hx ▸ h0
  | succ k => exact hs k x hx

theorem forall_slots_one_iff {P : Nat → Arg → Prop} {a : Arg} : (∀ k x, [a][k]? = some x → P k x) ↔ P 0 a := by
  simp [forall_slots_cons_iff]

theorem forall_slots_two_iff {P : Nat → Arg → Prop} {a b : Arg} :
    (∀ k x, [a, b][k]? = some x → P k x) ↔ P 0 a ∧ P 1 b := by
  simp [forall_slots_cons_iff]

theorem Arg.isLegal_of_isRegister {a : Arg} (h : a.isRegister = true) : a.isLegal = true := by
  obtain ⟨r, rfl⟩ := Machine.isRegister_iff.1 h
  rfl

theorem Arg.isLegal_of_isSymbol {a : Arg} (h : a.isSymbol = true) : a.isLegal = true := by
  obtain ⟨i, rfl⟩ := Machine.isSymbol_iff.1 h
  rfl

/-- The engine's masks accept legal arguments only (R85, R86). -/
theorem Instr.isLegal_of_wf {i : Instr} (h : i.wf = true) : ∀ a ∈ i.args, a.isLegal = true := by
  cases i with
  | none | halt => exact nofun
  | jmp | call => exact List.forall_mem_singleton.2 (Arg.isLegal_of_isSymbol h)
  | push => exact List.forall_mem_singleton.2 h
  | pop => exact List.forall_mem_singleton.2 (Arg.isLegal_of_isRegister h)
  | mov | add | sub | assert =>
    obtain ⟨ha, hb⟩ := Bool.and_eq_true_iff.1 h
    simp [Instr.args, Arg.isLegal_of_isRegister ha, hb]
  | cmp =>
    obtain ⟨ha, hb⟩ := Bool.and_eq_true_iff.1 h
    simp [Instr.args, ha, hb]

theorem Instr.length_args (i : Instr) : i.args.length = i.opcode.nargs := by cases i <;> rfl

/-- A row of the opcode map and as many arguments as it takes are an instruction (R51). -/
theorem exists_instr {op : Opcode} {as : List Arg} (h : as.length = op.nargs) :
    ∃ i : Instr, i.opcode = op ∧ i.args = as := by
  match op, as, h with
  | .none, [], _ => exact ⟨.none, rfl, rfl⟩
  | .halt, [], _ => exact ⟨.halt, rfl, rfl⟩
  | .jmp, [a], _ => exact ⟨.jmp a, rfl, rfl⟩
  | .push, [a], _ => exact ⟨.push a, rfl, rfl⟩
  | .pop, [a], _ => exact ⟨.pop a, rfl, rfl⟩
  | .call, [a], _ => exact ⟨.call a, rfl, rfl⟩
  | .mov, [a, b], _ => exact ⟨.mov a b, rfl, rfl⟩
  | .cmp, [a, b], _ => exact ⟨.cmp a b, rfl, rfl⟩
  | .add, [a, b], _ => exact ⟨.add a b, rfl, rfl⟩
  | .sub, [a, b], _ => exact ⟨.sub a b, rfl, rfl⟩
  | .assert, [a, b], _ => exact ⟨.assert a b, rfl, rfl⟩

/-! ## Decoding, by the words it reads -/

theorem readArg_eq_ok_iff {ε : Type} {read : Nat → Except ε Word} {k : Nat} {a : Arg} :
    readArg read k = .ok a ↔
      ∃ kw vw, read (1 + 2 * k) = .ok kw ∧ read (2 + 2 * k) = .ok vw ∧ a = Arg.ofWords kw vw := by
  refine ⟨readArg_ok, ?_⟩
  rintro ⟨kw, vw, hk, hv, rfl⟩
  simp [readArg, hk, hv]

/-- What decodes to an instruction: its opcode number at offset 0, and each argument at its slot (R50, R83, R84). -/
theorem decodeWith_eq_ok_iff {ε : Type} {read : Nat → Except ε Word} {illegal : Word → ε} {i : Instr} :
    decodeWith read illegal = .ok i ↔
      read 0 = .ok i.opcode.number ∧ ∀ k a, i.args[k]? = some a → readArg read k = .ok a := by
  constructor
  · intro h
    obtain ⟨w, hw, h⟩ := bind_eq_ok h
    cases hop : Opcode.ofWord w with
    | none => rw [hop] at h; cases h
    | some op =>
      rw [hop] at h
      rw [Opcode.ofWord_eq_some_iff] at hop
      subst hop
      cases op with
      | none | halt => cases h; exact ⟨hw, nofun⟩
      | jmp | push | pop | call =>
        obtain ⟨a, ha, h⟩ := bind_eq_ok h
        cases h
        exact ⟨hw, forall_slots_one_iff.2 ha⟩
      | mov | cmp | add | sub | assert =>
        obtain ⟨a, ha, h⟩ := bind_eq_ok h
        obtain ⟨b, hb, h⟩ := bind_eq_ok h
        cases h
        exact ⟨hw, forall_slots_two_iff.2 ⟨ha, hb⟩⟩
  · rintro ⟨hw, hargs⟩
    simp only [decodeWith, hw, ok_bind, Opcode.ofWord_number]
    cases i with
    | none | halt => rfl
    | jmp | push | pop | call =>
      have ha := hargs 0 _ rfl
      simp only [Instr.opcode, ha, ok_bind, pure_eq_ok]
    | mov | cmp | add | sub | assert =>
      have ha := hargs 0 _ rfl
      have hb := hargs 1 _ rfl
      simp only [Instr.opcode, ha, hb, ok_bind, pure_eq_ok]

theorem wordAt_eq_ok_iff {ws : List Word} {j : Nat} {w : Word} : wordAt ws j = .ok w ↔ ws[j]? = some w := by
  unfold wordAt
  cases ws[j]? <;> simp

/-! ## Decoding as the inverse of encoding -/

theorem cons_cons_prefix_iff {k v : Word} {us ws : List Word} :
    k :: v :: us <+: ws ↔ ws[0]? = some k ∧ ws[1]? = some v ∧ us <+: ws.drop 2 := by
  match ws with
  | [] | [w] => simp
  | w :: x :: ws => simp [List.cons_prefix_cons, eq_comm]

/-- The words of arguments stand at the head of a list: each argument's two words at its own slot. -/
theorem flatMap_words_prefix_iff {as : List Arg} {ws : List Word} :
    as.flatMap Arg.words <+: ws ↔
      ∀ k a, as[k]? = some a → ∃ kw vw, a.words = [kw, vw] ∧ ws[2 * k]? = some kw ∧ ws[2 * k + 1]? = some vw := by
  induction as generalizing ws with
  | nil => simp
  | cons a as ih =>
    obtain ⟨kw, vw, ha⟩ := List.length_eq_two.1 (Laws.EncodedSize.words_length a)
    rw [forall_slots_cons_iff, List.flatMap_cons, ha]
    simp [cons_cons_prefix_iff, ih, Nat.mul_add, Nat.add_comm, and_assoc, Nat.add_left_comm]

/-- An encoding stands at the head of a list: the opcode number, then each argument's two words at its slot (R50). -/
theorem encode_prefix_iff {i : Instr} {ws : List Word} :
    encode i <+: ws ↔ ws[0]? = some i.opcode.number ∧ ∀ k a, i.args[k]? = some a →
      ∃ kw vw, a.words = [kw, vw] ∧ ws[1 + 2 * k]? = some kw ∧ ws[2 + 2 * k]? = some vw := by
  cases ws with
  | nil => simp [encode]
  | cons w ws =>
    simp only [encode, List.cons_prefix_cons, flatMap_words_prefix_iff, Nat.add_comm _ (2 * _), List.getElem?_cons_succ,
      List.getElem?_cons_zero, Option.some.injEq, eq_comm]

/-- A legal argument is what its two words decode to (R55, R57). -/
theorem Arg.eq_ofWords {a : Arg} {k v : Word} (ha : a.isLegal = true) (h : a.words = [k, v]) : a = Arg.ofWords k v := by
  obtain ⟨o, rfl⟩ := Machine.isLegal_iff.1 ha
  obtain ⟨hk, hv⟩ : o.kindWord = k ∧ o.valueWord = v := by simpa [Arg.words] using h
  exact (Arg.ofWords_eq_operand.2 ⟨hk.symm, hv.symm⟩).symm

/-- The words that decode to an instruction begin with its encoding, ill-formed arguments included (R52). -/
theorem encode_prefix_of_decode {ws : List Word} {i : Instr} (h : decode ws = .ok i) : encode i <+: ws := by
  obtain ⟨hop, hargs⟩ := decodeWith_eq_ok_iff.1 h
  refine encode_prefix_iff.2 ⟨wordAt_eq_ok_iff.1 hop, fun k a ha => ?_⟩
  obtain ⟨kw, vw, hk, hv, rfl⟩ := readArg_eq_ok_iff.1 (hargs k a ha)
  exact ⟨kw, vw, Arg.words_ofWords kw vw, wordAt_eq_ok_iff.1 hk, wordAt_eq_ok_iff.1 hv⟩

/-- Words that begin with the encoding of an instruction of legal arguments decode to it. -/
theorem decode_of_encode_prefix {ws : List Word} {i : Instr} (hlegal : ∀ a ∈ i.args, a.isLegal = true)
    (h : encode i <+: ws) : decode ws = .ok i := by
  obtain ⟨hop, hargs⟩ := encode_prefix_iff.1 h
  refine decodeWith_eq_ok_iff.2 ⟨wordAt_eq_ok_iff.2 hop, fun k a ha => ?_⟩
  obtain ⟨kw, vw, hwords, hk, hv⟩ := hargs k a ha
  exact readArg_eq_ok_iff.2 ⟨kw, vw, wordAt_eq_ok_iff.2 hk, wordAt_eq_ok_iff.2 hv,
    Arg.eq_ofWords (hlegal a (List.mem_of_getElem? ha)) hwords⟩

theorem decode_encode {i : Instr} (hlegal : ∀ a ∈ i.args, a.isLegal = true) : decode (encode i) = .ok i :=
  decode_of_encode_prefix hlegal (List.prefix_refl _)

theorem length_encode (i : Instr) : (encode i).length = 1 + 2 * i.args.length := by
  simp [encode, List.length_flatMap, Laws.EncodedSize.words_length, Nat.add_comm, Nat.mul_comm]

end Sys2Proof

namespace Sys2Proof.Machine

/-! ## The classification of an argument token (R65) -/

theorem bracketed_brackets (name : Token) : bracketed ('[' :: (name ++ [']'])) = some name := by
  simp [bracketed]

theorem classify_of_registerNamed {tab : SymbolTable} {t : Token} {r : Reg} (h : registerNamed t = some r) :
    classify tab t = .ok (.register r) := by
  simp only [classify, h]

theorem classify_of_bracketed {tab : SymbolTable} {t : Token} {p : Nat × SymbolEntry} (hreg : registerNamed t = none)
    (h : (bracketed t).bind (lookupName tab) = some p) : classify tab t = .ok (.value p.1) := by
  simp only [classify, hreg, h]

theorem classify_of_symbol {tab : SymbolTable} {t : Token} {i : Nat} {e : SymbolEntry} (hreg : registerNamed t = none)
    (hbr : (bracketed t).bind (lookupName tab) = none) (h : lookupName tab t = some (i, e)) :
    classify tab t = if e.kind = .label then .ok (.symbol i) else .ok (.address e.location) := by
  simp only [classify, hreg, hbr, h]

theorem classify_of_literal {tab : SymbolTable} {t : Token} {n : Nat} (hreg : registerNamed t = none)
    (hbr : (bracketed t).bind (lookupName tab) = none) (hsym : lookupName tab t = none) (h : literalValue t = some n) :
    classify tab t = .ok (.integer n) := by
  simp only [classify, hreg, hbr, hsym, h]

theorem classify_of_nothing {tab : SymbolTable} {t : Token} (hreg : registerNamed t = none)
    (hbr : (bracketed t).bind (lookupName tab) = none) (hsym : lookupName tab t = none) (h : literalValue t = none) :
    classify tab t = .error (.unresolvedSymbol t) := by
  simp only [classify, hreg, hbr, hsym, h]

theorem classify_error {tab : SymbolTable} {t : Token} {e : AsmError} (h : classify tab t = .error e) :
    e = .unresolvedSymbol t := by
  unfold classify at h
  repeat' split at h
  all_goals cases h
  rfl

/-! ## The arguments of a line -/

theorem classifyAll_error {tab : SymbolTable} {ts : List Token} {e : AsmError} (h : classifyAll tab ts = .error e) :
    ∃ t, e = .unresolvedSymbol t := by
  induction ts with
  | nil => cases h
  | cons t ts ih =>
    obtain h | ⟨a, -, h⟩ := bind_eq_error h
    · exact ⟨t, classify_error h⟩
    · obtain h | ⟨as, -, h⟩ := bind_eq_error h
      · exact ih h
      · cases h

/-- The first argument that classifies as nothing stops the line (R65, R66). -/
theorem classifyAll_of_first_error {tab : SymbolTable} {pre post : List Token} {t : Token} {e : AsmError}
    (hpre : ∀ u ∈ pre, ∃ a, classify tab u = .ok a) (ht : classify tab t = .error e) :
    classifyAll tab (pre ++ t :: post) = .error e := by
  induction pre with
  | nil => simp [classifyAll, ht]
  | cons u pre ih =>
    obtain ⟨⟨a, ha⟩, hpre⟩ := List.forall_mem_cons.1 hpre
    simp [classifyAll, ha, ih hpre]

theorem Argument.operand_integer (n : Nat) : (Argument.integer n).operand =
    if n < 2 ^ 32 then .ok (.integer (BitVec.ofNat 32 n)) else .error .literalOutOfRange := by
  simp only [Argument.operand, literalWord]
  split <;> rfl

/-- Only a literal out of range has no operand (R69, R70). -/
theorem Argument.operand_eq_error_iff {a : Argument} {e : AsmError} :
    a.operand = .error e ↔ e = .literalOutOfRange ∧ ∃ n, a = .integer n ∧ 2 ^ 32 ≤ n := by
  cases a with
  | integer n =>
    rw [Argument.operand_integer]
    split
    · next hn => simpa using fun _ => hn
    · next hn => simpa [eq_comm] using fun _ => Nat.not_lt.1 hn
  | register | value | address | symbol => simp [Argument.operand]

theorem operandsOf_eq_error_iff {as : List Argument} {e : AsmError} :
    operandsOf as = .error e ↔ e = .literalOutOfRange ∧ ∃ n, .integer n ∈ as ∧ 2 ^ 32 ≤ n := by
  induction as with
  | nil => simp [operandsOf]
  | cons a as ih =>
    have hcons : operandsOf (a :: as) = .error e ↔ a.operand = .error e ∨ operandsOf as = .error e := by
      cases ha : a.operand with
      | ok o => cases hs : operandsOf as <;> simp [operandsOf, ha, hs]
      | error e' =>
        have he' := (Argument.operand_eq_error_iff.1 ha).1
        have hs : operandsOf as = .error e → e' = e := fun hs => he'.trans (ih.1 hs).1.symm
        simpa [operandsOf, ha] using hs
    rw [hcons, Argument.operand_eq_error_iff, ih, ← and_or_left, ← exists_or]
    simp only [List.mem_cons, or_and_right, eq_comm]

/-! ## One line, check by check (R66) -/

theorem encodeLine_of_unknown {tab : SymbolTable} {m : Token} {args : List Token} (hm : mnemonicNamed m = none) :
    encodeLine tab (m :: args) = .error .unknownMnemonic := by
  simp only [encodeLine, hm]

section
variable {tab : SymbolTable} {m : Token} {args : List Token} {op : Opcode} (hm : mnemonicNamed m = some op)
include hm

theorem encodeLine_of_length_ne (hl : args.length ≠ op.nargs) :
    encodeLine tab (m :: args) = .error .argumentCountMismatch := by
  simp only [encodeLine, hm, if_neg hl]

variable (hl : args.length = op.nargs)
include hl

theorem encodeLine_of_unclassified {e : AsmError} (h : classifyAll tab args = .error e) :
    encodeLine tab (m :: args) = .error e := by
  simp only [encodeLine, hm, if_pos hl, h, error_bind]

variable {as : List Argument} (has : classifyAll tab args = .ok as)
include has

theorem encodeLine_of_kinds_not_allowed (hk : kindsAllowed (allowedKinds op) as = false) :
    encodeLine tab (m :: args) = .error .operandTypeMismatch := by
  simp [encodeLine, hm, hl, has, hk]

theorem encodeLine_of_kinds_allowed (hk : kindsAllowed (allowedKinds op) as = true) :
    encodeLine tab (m :: args) = (operandsOf as >>= fun os => .ok (emit op os)) := by
  simp [encodeLine, hm, hl, has, hk]

end

/-- No check after the argument count answers ArgumentCountMismatch (R66, R67). -/
theorem encodeLine_ne_argumentCountMismatch {tab : SymbolTable} {m : Token} {args : List Token} {op : Opcode}
    (hm : mnemonicNamed m = some op) (hl : args.length = op.nargs) :
    encodeLine tab (m :: args) ≠ .error .argumentCountMismatch := by
  cases has : classifyAll tab args with
  | error e =>
    obtain ⟨t, rfl⟩ := classifyAll_error has
    simp [encodeLine_of_unclassified hm hl has]
  | ok as =>
    cases hk : kindsAllowed (allowedKinds op) as with
    | false => simp [encodeLine_of_kinds_not_allowed hm hl has hk]
    | true =>
      rw [encodeLine_of_kinds_allowed hm hl has hk]
      intro h
      obtain h | ⟨os, -, h⟩ := bind_eq_error h
      · cases (operandsOf_eq_error_iff.1 h).1
      · cases h

/-! ## The instruction of an accepted line -/

/-- Emission is the encoding of the instruction of that row and those operands (R69). -/
theorem emit_eq_encode (i : Instr) {os : List Operand} (h : i.args = os.map .operand) : emit i.opcode os = encode i := by
  rw [encode, h, List.flatMap_map]
  rfl

/-- An accepted line is the encoding of an instruction of its mnemonic whose operands are its arguments, each of an allowed
kind. -/
theorem encodeLine_eq_encode {tab : SymbolTable} {m : Token} {args : List Token} {ws : List Word}
    (h : encodeLine tab (m :: args) = .ok ws) :
    ∃ (i : Instr) (as : List Argument) (os : List Operand), mnemonicNamed m = some i.opcode ∧ ws = encode i ∧
      i.args = os.map .operand ∧ os.length = args.length ∧ operandsOf as = .ok os ∧
      kindsAllowed (allowedKinds i.opcode) as = true := by
  obtain ⟨op, as, os, hm, hl, has, hk, hos, rfl⟩ := encodeLine_ok h
  have hlen : os.length = args.length := (operandsOf_length hos).trans (classifyAll_length has)
  obtain ⟨i, rfl, hargs⟩ := exists_instr (op := op) (as := os.map .operand) (by rw [List.length_map, hlen, hl])
  exact ⟨i, as, os, hm, emit_eq_encode i hargs, hargs, hlen, hos, hk⟩

theorem isLegal_of_mem_map_operand {os : List Operand} : ∀ a ∈ os.map Arg.operand, a.isLegal = true := by
  simp [Arg.isLegal]

/-- The argument of an accepted line of a one-argument row is an operand of a kind its slot allows (R56, R68). -/
theorem operand_of_kindsAllowed_single {a : Arg} {ks : List Kind} {as : List Argument} {os : List Operand}
    (hargs : [a] = os.map .operand) (hos : operandsOf as = .ok os) (hk : kindsAllowed [ks] as = true) :
    ∃ o, a = .operand o ∧ o.kind ∈ ks := by
  obtain ⟨o, os, rfl, rfl, hnil⟩ := List.map_eq_cons_iff.1 hargs.symm
  obtain rfl := List.map_eq_nil_iff.1 hnil
  obtain ⟨b, bs, hb, hbs, rfl⟩ := List.forall₂_cons_right_iff.1 (operandsOf_ok hos)
  obtain rfl := List.forall₂_nil_right_iff.1 hbs
  exact ⟨o, rfl, by simpa [kindsAllowed, Argument.operand_kind hb] using hk⟩

theorem isSymbol_of_kind {o : Operand} (h : o.kind = .symbol) : (Arg.operand o).isSymbol = true := by
  cases o <;> cases h
  rfl

theorem isRegister_of_kind {o : Operand} (h : o.kind = .register) : (Arg.operand o).isRegister = true := by
  cases o <;> cases h
  rfl

/-- The allowed kinds of JMP, CALL and POP are the engine's masks (R56, R86). -/
theorem wf_of_kindsAllowed {i : Instr} {as : List Argument} {os : List Operand} (hargs : i.args = os.map .operand)
    (hos : operandsOf as = .ok os) (hk : kindsAllowed (allowedKinds i.opcode) as = true)
    (hop : i.opcode = .jmp ∨ i.opcode = .call ∨ i.opcode = .pop) : i.wf = true := by
  cases i with
  | jmp | call =>
    obtain ⟨o, rfl, hkind⟩ := operand_of_kindsAllowed_single hargs hos hk
    exact isSymbol_of_kind (List.mem_singleton.1 hkind)
  | pop =>
    obtain ⟨o, rfl, hkind⟩ := operand_of_kindsAllowed_single hargs hos hk
    exact isRegister_of_kind (List.mem_singleton.1 hkind)
  | none | halt | mov | cmp | push | add | sub | assert => simp [Instr.opcode] at hop

/-! ## The obligations -/

/-- Settles O40: an instruction that the engine's masks accept has legal arguments. -/
theorem decodeOfEncode : Obligations.DecodeOfEncode :=
  fun _ _ hwf => decode_of_encode_prefix (Instr.isLegal_of_wf hwf) (List.prefix_append ..)

/-- Settles O41: every word of an argument is kept, also where the argument is illegal. -/
theorem encodeOfDecode : Obligations.EncodeOfDecode := by
  intro ws i h
  obtain ⟨rest, hrest⟩ := encode_prefix_of_decode h
  exact ⟨rest, hrest.symm⟩

/-- Settles O58: what the decoder reads is a Code word at its offset from AR. -/
theorem fetchedWordsFollowTheFormats : Obligations.FetchedWordsFollowTheFormats := by
  intro s i h
  obtain ⟨hop, hargs⟩ := decodeWith_eq_ok_iff.1 h
  refine ⟨by simpa using hop, fun k a ha => ?_, i.length_args, length_encode i, rfl⟩
  obtain ⟨kw, vw, hk, hv, rfl⟩ := readArg_eq_ok_iff.1 (hargs k a ha)
  exact ⟨kw, vw, Arg.words_ofWords kw vw, hk, hv⟩

/-- Settles O50: `classify` asks for a register, then for a bracketed symbol, then for a symbol, then for a literal. -/
theorem argumentClassification : Obligations.ArgumentClassification := by
  refine ⟨fun tab t => ⟨fun r => classify_of_registerNamed, ?_, fun hreg hbr => ?_⟩, fun _ => rfl, fun _ => rfl,
    fun _ => rfl, fun _ => rfl, Argument.operand_integer⟩
  · rintro name i e hreg rfl hname
    exact classify_of_bracketed hreg (p := (i, e)) (by simpa [bracketed_brackets] using hname)
  · have hnone : (bracketed t).bind (lookupName tab) = none := Option.bind_eq_none_iff.2 hbr
    exact ⟨fun _ _ => classify_of_symbol hreg hnone, fun _ => classify_of_literal hreg hnone,
      classify_of_nothing hreg hnone⟩

/-- Settles O49: the count is checked before anything else of the arguments, and nowhere else. -/
theorem argumentCountMismatchFires : Obligations.ArgumentCountMismatchFires :=
  fun _ _ _ _ hm => ⟨fun h hl => encodeLine_ne_argumentCountMismatch hm hl h, encodeLine_of_length_ne hm⟩

/-- Settles O56: each failure where the checks before it have passed. -/
theorem encoderFailsInOrder : Obligations.EncoderFailsInOrder := by
  refine fun tab m args => ⟨encodeLine_of_unknown, fun op => encodeLine_of_length_ne, ?_, fun op as hm hl has =>
    ⟨encodeLine_of_kinds_not_allowed hm hl has, fun hk => ?_⟩⟩
  · rintro op pre t post e hm hl rfl hpre ht
    exact encodeLine_of_unclassified hm hl (classifyAll_of_first_error hpre ht)
  · rw [encodeLine_of_kinds_allowed hm hl has hk]
    refine ⟨fun n hn hrange => ?_, fun hrange => ?_⟩
    · rw [operandsOf_eq_error_iff.2 ⟨rfl, n, hn, hrange⟩, error_bind]
    · cases hos : operandsOf as with
      | ok os => exact ⟨os, rfl, rfl⟩
      | error e =>
        obtain ⟨-, n, hn, hge⟩ := operandsOf_eq_error_iff.1 hos
        exact absurd (hrange n hn) (Nat.not_lt.2 hge)

/-- Settles O51: a line's operands are legal arguments, so its encoding decodes to its instruction. -/
theorem encodedLineDecodes : Obligations.EncodedLineDecodes := by
  intro tab m args ws h
  obtain ⟨i, as, os, hm, rfl, hargs, hlen, -, -⟩ := encodeLine_eq_encode h
  have hlegal : ∀ a ∈ i.args, a.isLegal = true := hargs ▸ isLegal_of_mem_map_operand
  exact ⟨i, decode_encode hlegal, rfl, hm, by rw [hargs, List.length_map, hlen], hlegal⟩

/-- Settles O52: the words of the line decode to the instruction whose kinds the assembler has checked. -/
theorem encodedTransfersAndPopsAreWellFormed : Obligations.EncodedTransfersAndPopsAreWellFormed := by
  intro tab line ws i h hdec hop
  cases line with
  | nil => cases h
  | cons m args =>
    obtain ⟨j, as, os, -, rfl, hargs, -, hos, hk⟩ := encodeLine_eq_encode h
    have hj : decode (encode j) = .ok j := decode_encode (hargs ▸ isLegal_of_mem_map_operand)
    obtain rfl : j = i := Except.ok.inj (hj.symm.trans hdec)
    exact wf_of_kindsAllowed hargs hos hk hop

end Sys2Proof.Machine

/-! The two passes of the assembler (30_encoding.md): what pass 1 has registered, what pass 2 has placed and resolved, and the
image they give. -/

namespace Sys2Proof.Machine

/-! ## An empty segment -/

theorem Mem.nil_wf : Mem.wf [] := ⟨.nil, List.forall_mem_nil _⟩

theorem Mem.nil_within (n : Nat) : Mem.within n [] := List.forall_mem_nil _

/-! ## Pass 1 of the assembler (R72)

`labelNames` are the names that the LABEL blocks declare. A property of what pass 1 has built, beside the names declared so far,
holds at its end when each registered symbol keeps it (`registerAll_keeps`). -/

/-- The names of the LABEL blocks, in source order. -/
def labelNames : List BlockKind → List Token
  | [] => []
  | .label name _ :: bs => name :: labelNames bs
  | .data _ :: bs => labelNames bs
  | .code _ :: bs => labelNames bs

/-- A label as pass 1 registers it: unresolved (log entry 12). -/
def unplacedLabel : SymbolEntry := { kind := .label, resolved := false, location := 0 }

section
variable {n : Nat} {P : List Token → Registration → Prop}
  (hdatum : ∀ {names r r' line}, P names r → declare n r line = .ok r' → P names r')
include hdatum

theorem declareAll_keeps {names : List Token} {r r' : Registration} {lines : List Token} (hr : P names r)
    (h : declareAll n r lines = .ok r') : P names r' := by
  induction lines generalizing r with
  | nil => cases h; exact hr
  | cons line lines ih =>
    obtain ⟨q, hq, h⟩ := bind_eq_ok h
    exact ih (hdatum hr hq) h

variable (hlabel : ∀ {names r r' name}, P names r → r.add name unplacedLabel = .ok r' → P (names ++ [name]) r')
include hlabel

theorem registerAll_keeps {names : List Token} {r r' : Registration} {bs : List BlockKind} (hr : P names r)
    (h : registerAll n r bs = .ok r') : P (names ++ labelNames bs) r' := by
  induction bs generalizing names r with
  | nil => cases h; simpa [labelNames] using hr
  | cons b bs ih =>
    cases b with
    | label name body =>
      obtain ⟨q, hq, h⟩ := bind_eq_ok h
      simpa [labelNames] using ih (hlabel hr hq) h
    | data lines =>
      obtain ⟨q, hq, h⟩ := bind_eq_ok h
      exact ih (declareAll_keeps (names := names) hdatum hr hq) h
    | code lines => exact ih hr h

end

/-- A declared datum registers one symbol, a resolved scalar in Data of a new name, and writes one Data word (R72). -/
theorem declare_table {n : Nat} {r r' : Registration} {line : Token} (h : declare n r line = .ok r') :
    ∃ x : NamedSymbol, r'.table = r.table ++ [x] ∧ r'.table.length < 2 ^ 32 ∧ (∀ y ∈ r.table, y.name ≠ x.name) ∧
      x.entry.kind ≠ .label ∧ x.entry.resolved = true ∧ x.entry.location.toNat < n := by
  obtain ⟨name, kind, w, hk, hc, hadd, -⟩ := declare_ok h
  obtain ⟨heq, hlen, hnew⟩ := Registration.add_ok hadd
  have htable := congrArg Registration.table heq
  refine ⟨_, htable, ?_, hnew, hk, rfl, (Nat.mod_le _ _).trans_lt hc⟩
  rwa [show r'.table = _ from htable, List.length_append]

/-- A registered label: one symbol of a new name, and Data as it was (R72). -/
theorem Registration.add_unplacedLabel {r r' : Registration} {name : Token} (h : r.add name unplacedLabel = .ok r') :
    r'.data = r.data ∧ r'.table = r.table ++ [⟨name, unplacedLabel⟩] ∧ r'.table.length < 2 ^ 32 ∧
      ∀ y ∈ r.table, y.name ≠ name := by
  obtain ⟨rfl, hlen, hnew⟩ := Registration.add_ok h
  exact ⟨rfl, rfl, by simpa using hlen, hnew⟩

/-- What pass 1 has built is in the form the engine asks of an image: its Data content, and the number of its symbols. -/
def Registration.Wf (n : Nat) (r : Registration) : Prop :=
  Mem.wf r.data ∧ Mem.within n r.data ∧ r.table.length < 2 ^ 32

theorem registerAll_wf {n : Nat} {r r' : Registration} {bs : List BlockKind} (hr : r.Wf n)
    (h : registerAll n r bs = .ok r') : r'.Wf n := by
  refine registerAll_keeps (P := fun _ r => r.Wf n) (fun {_ r r' _} ⟨hwf, hin, _⟩ hq => ?_)
    (fun {_ r r' _} ⟨hwf, hin, _⟩ hq => ?_) (names := []) hr h
  · obtain ⟨-, -, hlen, -⟩ := declare_table hq
    obtain ⟨_, _, w, -, hc, -, heq⟩ := declare_ok hq
    rw [Registration.Wf, congrArg Registration.data heq]
    exact ⟨Mem.write_wf hwf r.cursor w, Mem.write_within hin hc w, hlen⟩
  · obtain ⟨hdata, -, hlen, -⟩ := Registration.add_unplacedLabel hq
    exact ⟨hdata ▸ hwf, hdata ▸ hin, hlen⟩

/-- The symbols that pass 1 has registered: the labels are those whose names LABEL blocks have declared, and every scalar is
resolved to a Data address (R72). -/
structure Registration.Sorted (n : Nat) (names : List Token) (r : Registration) : Prop where
  named : ∀ name ∈ names, ∃ x ∈ r.table, x.name = name
  label_iff : ∀ x ∈ r.table, x.entry.kind = .label ↔ x.name ∈ names
  scalar : ∀ x ∈ r.table, x.entry.kind ≠ .label → x.entry.resolved = true ∧ x.entry.location.toNat < n

theorem Registration.Sorted.not_mem_names {n : Nat} {names : List Token} {r : Registration} {name : Token}
    (hr : r.Sorted n names) (hnew : ∀ y ∈ r.table, y.name ≠ name) : name ∉ names := by
  intro hmem
  obtain ⟨y, hy, hname⟩ := hr.named name hmem
  exact hnew y hy hname

theorem Registration.Sorted.declare {n : Nat} {names : List Token} {r r' : Registration} {line : Token}
    (hr : r.Sorted n names) (h : declare n r line = .ok r') : r'.Sorted n names := by
  obtain ⟨x, htable, -, hnew, hkind, hscalar⟩ := declare_table h
  refine ⟨fun name hname => ?_, ?_, ?_⟩
  · obtain ⟨y, hy, hyn⟩ := hr.named name hname
    exact ⟨y, htable ▸ List.mem_append_left _ hy, hyn⟩
  · rw [htable, List.forall_mem_append, List.forall_mem_singleton]
    exact ⟨hr.label_iff, iff_of_false hkind (hr.not_mem_names hnew)⟩
  · rw [htable, List.forall_mem_append, List.forall_mem_singleton]
    exact ⟨hr.scalar, fun _ => hscalar⟩

theorem Registration.Sorted.add {n : Nat} {names : List Token} {r r' : Registration} {name : Token}
    (hr : r.Sorted n names) (h : r.add name unplacedLabel = .ok r') : r'.Sorted n (names ++ [name]) := by
  obtain ⟨-, htable, -, hnew⟩ := Registration.add_unplacedLabel h
  refine ⟨?_, ?_, ?_⟩
  · rw [List.forall_mem_append, List.forall_mem_singleton, htable]
    refine ⟨fun nm hnm => ?_, ⟨_, List.mem_append_right _ (List.mem_singleton_self _), rfl⟩⟩
    obtain ⟨y, hy, hyn⟩ := hr.named nm hnm
    exact ⟨y, List.mem_append_left _ hy, hyn⟩
  · rw [htable, List.forall_mem_append, List.forall_mem_singleton]
    refine ⟨fun y hy => ?_, by simp [unplacedLabel]⟩
    rw [hr.label_iff y hy]
    simp [hnew y hy]
  · rw [htable, List.forall_mem_append, List.forall_mem_singleton]
    exact ⟨hr.scalar, fun hk => absurd rfl hk⟩

theorem registerAll_sorted {n : Nat} {r r' : Registration} {names : List Token} {bs : List BlockKind} (hr : r.Sorted n names)
    (h : registerAll n r bs = .ok r') : r'.Sorted n (names ++ labelNames bs) :=
  registerAll_keeps (P := fun names r => r.Sorted n names) .declare .add hr h

/-- Pass 1 keeps the symbols it has, and no later label takes the name of one of them (log entry 9). -/
theorem registerAll_extends {n : Nat} {r r' : Registration} {bs : List BlockKind} (h : registerAll n r bs = .ok r') :
    r.table <+: r'.table ∧ ∀ x ∈ r.table, x.name ∉ labelNames bs := by
  refine registerAll_keeps (P := fun names q => r.table <+: q.table ∧ ∀ x ∈ r.table, x.name ∉ names)
    (fun ⟨hpre, hnames⟩ hq => ?_) (fun {names _ _ name} ⟨hpre, hnames⟩ hq => ?_) (names := [])
    ⟨List.prefix_refl _, nofun⟩ h
  · obtain ⟨x, htable, -⟩ := declare_table hq
    exact ⟨htable ▸ hpre.trans (List.prefix_append ..), hnames⟩
  · obtain ⟨-, htable, -, hnew⟩ := Registration.add_unplacedLabel hq
    refine ⟨htable ▸ hpre.trans (List.prefix_append ..), fun x hx => ?_⟩
    simpa using ⟨hnames x hx, hnew x (hpre.subset hx)⟩

theorem declareAll_length {n : Nat} {r r' : Registration} {lines : List Token} (h : declareAll n r lines = .ok r') :
    r'.table.length = r.table.length + lines.length := by
  induction lines generalizing r with
  | nil => cases h; rfl
  | cons line lines ih =>
    obtain ⟨q, hq, h⟩ := bind_eq_ok h
    obtain ⟨x, htable, -⟩ := declare_table hq
    simp only [ih h, htable, List.length_append, List.length_cons, List.length_nil]
    omega

/-- Pass 1 registers the symbols that R72 counts. -/
theorem registerAll_length {n : Nat} {r r' : Registration} {bs : List BlockKind} (h : registerAll n r bs = .ok r') :
    r'.table.length = r.table.length + (bs.map BlockKind.symbolCount).sum := by
  induction bs generalizing r with
  | nil => cases h; rfl
  | cons b bs ih =>
    rw [List.map_cons, List.sum_cons]
    cases b with
    | label name body =>
      obtain ⟨q, hq, h⟩ := bind_eq_ok h
      obtain ⟨-, htable, -⟩ := Registration.add_unplacedLabel hq
      rw [ih h, htable, List.length_append, List.length_singleton, BlockKind.symbolCount, Nat.add_assoc]
    | data lines =>
      obtain ⟨q, hq, h⟩ := bind_eq_ok h
      rw [ih h, declareAll_length hq, BlockKind.symbolCount, Nat.add_assoc]
    | code lines => rw [ih h, BlockKind.symbolCount, Nat.zero_add]

/-! ## Pass 2 of the assembler (R71) -/

/-- The symbol `y` that pass 2 makes of `x` when it places the labels of these names: those it resolves to a Code address, and
every other symbol it keeps. -/
structure Placed (n : Nat) (names : List Token) (x y : NamedSymbol) : Prop where
  name : y.name = x.name
  kind : y.entry.kind = x.entry.kind
  kept : x.name ∉ names → y = x
  resolved : x.name ∈ names → y.entry.resolved = true ∧ y.entry.location.toNat < n

theorem Placed.refl (n : Nat) (x : NamedSymbol) : Placed n [] x x := ⟨rfl, rfl, fun _ => rfl, nofun⟩

theorem Placed.trans {n : Nat} {ns ms : List Token} {x y z : NamedSymbol} (hxy : Placed n ns x y) (hyz : Placed n ms y z) :
    Placed n (ns ++ ms) x z where
  name := hyz.name.trans hxy.name
  kind := hyz.kind.trans hxy.kind
  kept h := by
    obtain ⟨hn, hm⟩ : x.name ∉ ns ∧ x.name ∉ ms := by simpa using h
    rw [hyz.kept (hxy.name ▸ hm), hxy.kept hn]
  resolved h := by
    by_cases hm : x.name ∈ ms
    · exact hyz.resolved (hxy.name ▸ hm)
    · rw [hyz.kept (hxy.name ▸ hm)]
      exact hxy.resolved ((List.mem_append.1 h).resolve_right hm)

/-- A symbol after its LABEL block, or another's, has been placed at a Code address (R71). -/
def NamedSymbol.placedAt (name : Token) (start : Nat) (x : NamedSymbol) : NamedSymbol :=
  if x.name = name then { x with entry := { x.entry with resolved := true, location := BitVec.ofNat 32 start } } else x

theorem patchLabel_eq_map (tab : SymbolTable) (name : Token) (start : Nat) :
    patchLabel tab name start = tab.map (NamedSymbol.placedAt name start) := rfl

theorem NamedSymbol.placed_placedAt {n start : Nat} (h : start < n) (name : Token) (x : NamedSymbol) :
    Placed n [name] x (x.placedAt name start) := by
  unfold NamedSymbol.placedAt
  split
  · next hx =>
    exact ⟨rfl, rfl, fun hn => absurd (List.mem_singleton.2 hx) hn, fun _ => ⟨rfl, (Nat.mod_le _ _).trans_lt h⟩⟩
  · next hx => exact ⟨rfl, rfl, fun _ => rfl, fun hm => absurd (List.mem_singleton.1 hm) hx⟩

theorem NamedSymbol.entry_placedAt_self (x : NamedSymbol) (start : Nat) :
    (x.placedAt x.name start).entry = { kind := x.entry.kind, resolved := true, location := BitVec.ofNat 32 start } := by
  rw [NamedSymbol.placedAt, if_pos rfl]

/-- Pass 2 makes one symbol of each symbol, in its place. -/
theorem placeAll_table {n : Nat} {p p' : Placement} {bs : List BlockKind} (h : placeAll n p bs = .ok p') :
    ∃ f, p'.table = p.table.map f ∧ ∀ x, Placed n (labelNames bs) x (f x) := by
  induction bs generalizing p with
  | nil => cases h; exact ⟨id, (List.map_id _).symm, Placed.refl n⟩
  | cons b bs ih =>
    cases b with
    | label name body =>
      obtain ⟨q, hq, h⟩ := bind_eq_ok h
      obtain ⟨ws, -, -, hlt, rfl⟩ := Placement.placeLabel_ok hq
      obtain ⟨f, hf, hplaced⟩ := ih h
      refine ⟨f ∘ NamedSymbol.placedAt name p.cursor, ?_, fun x => ?_⟩
      · rw [hf, patchLabel_eq_map, List.map_map]
      · exact (x.placed_placedAt hlt name).trans (hplaced _)
    | code lines =>
      obtain ⟨q, hq, h⟩ := bind_eq_ok h
      obtain ⟨ws, -, -, rfl⟩ := Placement.place_ok hq
      exact (ih h :)
    | data lines => exact ih (p := p) h

theorem placeAll_cursor_le {n : Nat} {p p' : Placement} {bs : List BlockKind} (hp : p.cursor ≤ n)
    (h : placeAll n p bs = .ok p') : p'.cursor ≤ n := by
  induction bs generalizing p with
  | nil => cases h; exact hp
  | cons b bs ih =>
    cases b with
    | label name body =>
      obtain ⟨q, hq, h⟩ := bind_eq_ok h
      obtain ⟨ws, -, hle, -, rfl⟩ := Placement.placeLabel_ok hq
      exact ih hle h
    | code lines =>
      obtain ⟨q, hq, h⟩ := bind_eq_ok h
      obtain ⟨ws, -, hle, rfl⟩ := Placement.place_ok hq
      exact ih hle h
    | data lines => exact ih (p := p) hp h

/-- What pass 2 places into an empty Code segment: canonical content within Code, nothing from the cursor on, and the cursor
past the words of the instruction lines (R71). -/
theorem placeAll_code {n : Nat} {tab : SymbolTable} {p : Placement} {bs : List BlockKind}
    (h : placeAll n { table := tab, code := [], cursor := 0 } bs = .ok p) :
    Mem.wf p.code ∧ Mem.within n p.code ∧ Mem.read p.code p.cursor = 0 ∧
      p.cursor = linesSize (bs.flatMap BlockKind.instructionLines) := by
  obtain ⟨ws, hcode, hcursor, hlen, -⟩ := placeAll_ok h
  have hle := placeAll_cursor_le (Nat.zero_le n) h
  rw [hcursor] at hle ⊢
  rw [hcode]
  refine ⟨Mem.writeWords_wf Mem.nil_wf 0 ws, Mem.writeWords_within (Mem.nil_within n) ws hle, ?_,
    (Nat.zero_add _).trans hlen⟩
  simp [Mem.read_writeWords Mem.nil_wf, Mem.read, Mem.blank]

/-- The word at the cursor after more blocks are placed: the opcode word of their first instruction line, or what was there
where they have none (R71). -/
theorem placeAll_read_cursor {n : Nat} {p p' : Placement} {bs : List BlockKind} (hwf : Mem.wf p.code)
    (h : placeAll n p bs = .ok p') :
    match bs.flatMap BlockKind.instructionLines with
    | line :: _ => ∃ op, lineOpcode line = some op ∧ Mem.read p'.code p.cursor = op.number
    | [] => Mem.read p'.code p.cursor = Mem.read p.code p.cursor := by
  obtain ⟨ws, hcode, -, -, hws⟩ := placeAll_ok h
  have hread : Mem.read p'.code p.cursor = ws[0]?.getD (Mem.read p.code p.cursor) := by
    simp [hcode, Mem.read_writeWords hwf]
  cases hl : bs.flatMap BlockKind.instructionLines with
  | nil =>
    rw [hl] at hws
    rw [hread, hws]
    rfl
  | cons line lines =>
    rw [hl] at hws
    obtain ⟨op, hop, hw⟩ := hws
    exact ⟨op, hop, by rw [hread, hw, Option.getD_some]⟩

/-- A label has the index that R72 counts, and no later label has its name (log entry 9). -/
theorem registerAll_label {n : Nat} {r r' : Registration} {pre post : List BlockKind} {name : Token} {body : List Token}
    (h : registerAll n r (pre ++ .label name body :: post) = .ok r') :
    r'.table[r.table.length + (pre.map BlockKind.symbolCount).sum]? = some ⟨name, unplacedLabel⟩ ∧
      name ∉ labelNames post := by
  obtain ⟨q, hpre, h⟩ := registerAll_append h
  obtain ⟨q', hq, hpost⟩ := bind_eq_ok h
  obtain ⟨-, htable, -⟩ := Registration.add_unplacedLabel hq
  obtain ⟨hprefix, hnames⟩ := registerAll_extends hpost
  rw [htable] at hprefix hnames
  obtain ⟨later, hlater⟩ := hprefix
  refine ⟨?_, hnames _ (List.mem_append_right _ (List.mem_singleton_self _))⟩
  rw [← registerAll_length hpre, ← hlater]
  simp

/-- The first block's label is resolved to the cursor, and no block after it changes that (R71). -/
theorem placeAll_head_label {n k : Nat} {p p' : Placement} {bs : List BlockKind} {x : NamedSymbol} {body : List Token}
    (h : placeAll n p (.label x.name body :: bs) = .ok p') (hx : p.table[k]? = some x) (hbs : x.name ∉ labelNames bs) :
    p.cursor < n ∧ (p'.table.map NamedSymbol.entry)[k]? =
      some { kind := x.entry.kind, resolved := true, location := BitVec.ofNat 32 p.cursor } := by
  obtain ⟨q, hq, h⟩ := bind_eq_ok h
  obtain ⟨ws, -, -, hlt, rfl⟩ := Placement.placeLabel_ok hq
  obtain ⟨f, hf, hplaced⟩ := placeAll_table h
  have hat : (x.placedAt x.name p.cursor).name = x.name := (x.placed_placedAt hlt x.name).name
  have hkept : f (x.placedAt x.name p.cursor) = x.placedAt x.name p.cursor := (hplaced _).kept (by rwa [hat])
  refine ⟨hlt, ?_⟩
  simp only [hf, patchLabel_eq_map, List.getElem?_map, hx, Option.map_some, hkept,
    NamedSymbol.entry_placedAt_self]

/-! ## The obligations about an assembled image -/

/-- Settles O54: pass 1 keeps Data, pass 2 keeps Code in the form the invariant asks for, and the load empties the Stack and the
record. -/
theorem assembledImageLoadsWf : Obligations.AssembledImageLoadsWf := by
  intro source im s hcfg h
  obtain ⟨blocks, r, p, -, hr, hp, rfl⟩ := assemble_ok h
  obtain ⟨hdata, hdataIn, hlen⟩ := registerAll_wf ⟨Mem.nil_wf, Mem.nil_within _, by decide⟩ hr
  obtain ⟨hcode, hcodeIn, -⟩ := placeAll_code hp
  obtain ⟨f, hf, -⟩ := placeAll_table hp
  have hsym : (p.table.map NamedSymbol.entry).length < 2 ^ 32 := by simpa [hf] using hlen
  exact ⟨hcfg, ⟨⟨Mem.nil_wf, Mem.nil_within _⟩, ⟨hdata, hdataIn⟩, hcode, hcodeIn⟩, hsym,
    State.recordValid_of_fault_empty nofun rfl⟩

/-- Settles O55: pass 2 resolves the symbols that LABEL blocks declare, which are the labels, and keeps the scalars. -/
theorem assembledSymbolsAreResolved : Obligations.AssembledSymbolsAreResolved := by
  intro cfg source im _ h e he
  obtain ⟨blocks, r, p, -, hr, hp, rfl⟩ := assemble_ok h
  have hsorted := registerAll_sorted (names := []) ⟨List.forall_mem_nil _, List.forall_mem_nil _, List.forall_mem_nil _⟩ hr
  obtain ⟨f, hf, hplaced⟩ := placeAll_table hp
  obtain ⟨x, hx, rfl⟩ : ∃ x ∈ r.table, (f x).entry = e := by simpa [hf] using he
  rw [(hplaced x).kind]
  by_cases hk : x.entry.kind = .label
  · rw [if_pos hk]
    exact (hplaced x).resolved ((hsorted.label_iff x hx).1 hk)
  · rw [if_neg hk, (hplaced x).kept (mt (hsorted.label_iff x hx).2 hk)]
    exact hsorted.scalar x hx hk

/-- Settles O57: the blocks before a label fill Code up to the cursor, where its block starts and its label is resolved. -/
theorem assembledLabelsStandAtTheirBlocks : Obligations.AssembledLabelsStandAtTheirBlocks := by
  intro cfg source im pre name body post _ h hblocks
  obtain ⟨blocks, r, p, hb, hr, hp, rfl⟩ := assemble_ok h
  obtain rfl : blocks = pre ++ .label name body :: post := Except.ok.inj (hb.symm.trans hblocks)
  obtain ⟨hindex, hnew⟩ := registerAll_label hr
  rw [List.length_nil, Nat.zero_add] at hindex
  obtain ⟨q, hpre, hpost⟩ := placeAll_append hp
  obtain ⟨hwf, -, hblank, hstart⟩ := placeAll_code hpre
  obtain ⟨f, hf, hplaced⟩ := placeAll_table hpre
  have hq : q.table[(pre.map BlockKind.symbolCount).sum]? = some (f ⟨name, unplacedLabel⟩) := by
    rw [hf, List.getElem?_map, hindex, Option.map_some]
  have hname : (f ⟨name, unplacedLabel⟩).name = name := (hplaced _).name
  have hkind : (f ⟨name, unplacedLabel⟩).entry.kind = .label := (hplaced _).kind
  obtain ⟨hlt, hentry⟩ := placeAll_head_label (by rwa [hname]) hq (by rwa [hname])
  have hword := placeAll_read_cursor hwf hpost
  rw [hkind] at hentry
  rw [hblank] at hword
  rw [← hstart]
  exact ⟨hlt, hentry, hword⟩

end Sys2Proof.Machine

/-! The fetch, the decoder and the operands (40_fetch_decode_operands.md): which word a fetch fails at, what the opcode word
selects, the static checks of an argument's words, what the resolver gives, and the advance of PC and AR. -/

namespace Sys2Proof

/-! ## The rows of the opcode map, by number -/

theorem Opcode.all_getElem?_number (op : Opcode) : Opcode.all[op.number.toNat]? = some op := by cases op <;> rfl

theorem Opcode.nargs_eq_rawNargs (op : Opcode) : op.nargs = Machine.rawNargs op.number.toNat := by cases op <;> rfl

/-! ## Where a decoding fails -/

/-- A word from 11 on is refused before any argument word is read (R83). -/
theorem decodeWith_of_illegalOpcode {ε : Type} {read : Nat → Except ε Word} {illegal : Word → ε} {w : Word}
    (hread : read 0 = .ok w) (hw : 11 ≤ w.toNat) : decodeWith read illegal = .error (illegal w) := by
  rw [decodeWith, hread, ok_bind, (Opcode.ofWord_eq_none_iff w).1 hw]

theorem readArg_of_words {ε : Type} {read : Nat → Except ε Word} {slot : Nat}
    (hk : ∃ w, read (1 + 2 * slot) = .ok w) (hv : ∃ w, read (2 + 2 * slot) = .ok w) : ∃ a, readArg read slot = .ok a :=
  let ⟨kw, hk⟩ := hk
  let ⟨vw, hv⟩ := hv
  ⟨_, readArg_eq_ok_iff.2 ⟨kw, vw, hk, hv, rfl⟩⟩

/-- An argument fails at the first of its two words that cannot be read (R84). -/
theorem readArg_of_first_error {ε : Type} {read : Nat → Except ε Word} {slot j : Nat} {e : ε}
    (hbefore : ∀ i < j, ∃ w, read i = .ok w) (he : read j = .error e) (hlo : 1 + 2 * slot ≤ j)
    (hhi : j ≤ 2 + 2 * slot) : readArg read slot = .error e := by
  obtain rfl | rfl : j = 1 + 2 * slot ∨ j = 2 + 2 * slot := by omega
  · rw [readArg, he, error_bind]
  · obtain ⟨k, hk⟩ := hbefore (1 + 2 * slot) (by omega)
    rw [readArg, hk, ok_bind, he, error_bind]

/-- An instruction fails at the first of its words that cannot be read, for they are read in ascending order (R84). -/
theorem decodeWith_of_first_error {ε : Type} {read : Nat → Except ε Word} {illegal : Word → ε} {op : Opcode} {j : Nat}
    {e : ε} (hop : read 0 = .ok op.number) (hj : j < op.size) (hbefore : ∀ i < j, ∃ w, read i = .ok w)
    (he : read j = .error e) : decodeWith read illegal = .error e := by
  have hpos : j ≠ 0 := by
    rintro rfl
    cases hop.symm.trans he
  have slot_zero (hj : j < 3) : readArg read 0 = .error e :=
    readArg_of_first_error hbefore he (by omega) (by omega)
  rw [decodeWith, hop, ok_bind, Opcode.ofWord_number]
  cases op with
  | none | halt => exact absurd (Nat.lt_one_iff.1 hj) hpos
  | jmp | push | pop | call => simp only [slot_zero hj, error_bind]
  | mov | cmp | add | sub | assert =>
    have hj : j < 5 := hj
    by_cases hj3 : j < 3
    · simp only [slot_zero hj3, error_bind]
    · obtain ⟨a, ha⟩ := readArg_of_words (slot := 0) (hbefore 1 (by omega)) (hbefore 2 (by omega))
      have hb : readArg read 1 = .error e := readArg_of_first_error hbefore he (by omega) (by omega)
      simp only [ha, hb, ok_bind, error_bind]

/-! ## The legality of an argument's words -/

theorem Kind.ofWord_eq_none_iff {k : Word} :
    Kind.ofWord k = none ↔ k ≠ 0x01 ∧ k ≠ 0x02 ∧ k ≠ 0x04 ∧ k ≠ 0x08 ∧ k ≠ 0x10 := by
  simp only [Option.eq_none_iff_forall_ne_some, ne_eq, Kind.ofWord_eq_some_iff]
  exact ⟨fun h => ⟨h .register, h .integer, h .value, h .address, h .symbol⟩,
    fun ⟨hr, hi, hv, ha, hs⟩ q => by cases q <;> assumption⟩

/-- Two words are no legal operand where the kind word is none of the five, or it is REGISTER and the ordinal is 13 or more
(R85, R87). -/
theorem Arg.isLegal_ofWords_eq_false_iff {k v : Word} :
    (Arg.ofWords k v).isLegal = false ↔
      (k ≠ 0x01 ∧ k ≠ 0x02 ∧ k ≠ 0x04 ∧ k ≠ 0x08 ∧ k ≠ 0x10) ∨ (k = 0x01 ∧ 13 ≤ v.toNat) := by
  rw [← Kind.ofWord_eq_none_iff, Reg.ofOrdinal_eq_none_iff]
  cases hk : Kind.ofWord k with
  | none => simp [Arg.ofWords, hk, Arg.isLegal]
  | some q =>
    rw [Arg.ofWords, hk, ← Kind.word_of_ofWord hk]
    cases q with
    | register => cases Reg.ofOrdinal v <;> simp [Arg.isLegal, Kind.word]
    | integer | value | address | symbol => simp [Arg.isLegal, Kind.word]

end Sys2Proof

namespace Sys2Proof.Machine

/-! ## The Code words from AR on -/

/-- The Code read at an offset from AR that does not wrap: the fetch fault there, or the word (R33, R82). -/
theorem memRead_code_offset {s : State} {j : Nat} (h : (s.reg .ar).toNat + j < 2 ^ 32) :
    memRead .code (s.reg .ar + BitVec.ofNat 32 j) s = faultOr (fetchFaultAt s j) (.ok (s.wordAtOffset j)) := by
  have haddr : (s.reg .ar + BitVec.ofNat 32 j).toNat = (s.reg .ar).toNat + j := by
    rw [BitVec.toNat_add, BitVec.toNat_ofNat, Nat.add_mod_mod, Nat.mod_eq_of_lt h]
  by_cases hin : (s.reg .ar).toNat + j < s.cfg.codeWords
  · rw [memRead_of_lt (haddr ▸ hin), haddr, fetchFaultAt, if_pos hin]
    rfl
  · rw [memRead_of_ge (haddr ▸ Nat.not_lt.1 hin), fetchFaultAt, if_neg hin]
    rfl

/-- A fetch with AR outside Code faults at AR (R82). -/
theorem fetch_of_ar_ge {s : State} (h : s.cfg.codeWords ≤ (s.reg .ar).toNat) :
    fetch s = .error (.outOfBounds .code (s.reg .ar)) := by
  simp only [fetch, decodeWith, BitVec.add_zero, memRead_of_ge (seg := .code) h, error_bind]

/-- A row whose words do not all lie in Code faults at the first address past Code, for every row: one of one word has no word
past the opcode word that was read (R82). -/
theorem fetchFault (op : Opcode) : FetchFault op := by
  rintro s hr ⟨-, -, -, hcap⟩ hop hlast
  have har : (s.reg .ar).toNat < s.cfg.codeWords := (memRead_ok hop).1
  obtain ⟨j, hj⟩ := Nat.exists_eq_add_of_le har.le
  refine step_of_fetch_fault hr (decodeWith_of_first_error (j := j) (by simpa using hop) (by omega) (fun i hi => ?_) ?_)
  · rw [memRead_code_offset (by omega), fetchFaultAt, if_pos (by omega)]
    exact ⟨_, rfl⟩
  · rw [memRead_code_offset (by omega), fetchFaultAt, if_neg (by omega), hj, BitVec.ofNat_add, BitVec.ofNat_toNat,
      BitVec.setWidth_eq]
    rfl

/-! ## The resolver -/

/-- The fault of resolving is that of the first access that fails (R46, R88). -/
theorem firstFault_resolveAccesses (o : Operand) (s : State) : firstFault s (resolveAccesses o s) = resolutionFault s o := by
  cases o with
  | register r | integer n | address d => rfl
  | symbol i => simp [resolveAccesses, resolutionFault, Access.fault_lookup]
  | value i =>
    cases he : s.symtab[i.toNat]? with
    | none => simp [resolveAccesses, resolutionFault, Access.fault_lookup, State.hasLocation, he]
    | some e =>
      have hloc : s.locationOf i = e.location := by rw [State.locationOf, he]
      simp only [resolveAccesses, he, resolutionFault, hloc, firstFault_cons, firstFault_nil, Access.fault_lookup,
        Access.fault_read, Option.or_none, ← Nat.not_lt, ite_not]
      split <;> rfl

/-! ## The static checks -/

theorem illegalArg_ofWords (slot : Fin 2) (k v : Word) : illegalArg slot (Arg.ofWords k v) = .illegalOperand slot k v := by
  cases h : Arg.ofWords k v with
  | operand o => obtain ⟨rfl, rfl⟩ := Arg.ofWords_eq_operand.1 h; rfl
  | illegal k' v' => obtain ⟨rfl, rfl⟩ := Arg.ofWords_eq_illegal h; rfl

/-- The three static checks pass for a legal operand whose kind lies in the mask, and for nothing else (R85, R86, R87). -/
theorem staticFault_eq (slot : Fin 2) (mask k v : Word) :
    staticFault slot mask k v =
      if (Arg.ofWords k v).isLegal = true ∧ k &&& mask ≠ 0 then none else some (illegalArg slot (Arg.ofWords k v)) := by
  rw [illegalArg_ofWords, staticFault]
  cases hl : (Arg.ofWords k v).isLegal with
  | false =>
    obtain hkind | hordinal := Arg.isLegal_ofWords_eq_false_iff.1 hl
    · rw [if_pos hkind]
      simp
    · rw [if_pos hordinal]
      simp
  | true =>
    have hnot : ¬ (Arg.ofWords k v).isLegal = false := by simp [hl]
    obtain ⟨hkind, hordinal⟩ := not_or.1 (mt Arg.isLegal_ofWords_eq_false_iff.2 hnot)
    rw [if_neg hkind, if_neg hordinal]
    simp

/-- The checks of a slot, where the arguments that it accepts are the legal ones of the kinds in its mask (R86). -/
theorem staticFault_eq_of_accepts {mask : Word} {accepts : Arg → Bool} (hlegal : ∀ a, accepts a = true → a.isLegal = true)
    (hmask : ∀ o : Operand, accepts (.operand o) = true ↔ o.kindWord &&& mask ≠ 0) (slot : Fin 2) (k v : Word) :
    staticFault slot mask k v =
      if accepts (Arg.ofWords k v) then none else some (illegalArg slot (Arg.ofWords k v)) := by
  rw [staticFault_eq]
  refine if_congr ?_ rfl rfl
  cases h : Arg.ofWords k v with
  | operand o =>
    obtain ⟨rfl, -⟩ := Arg.ofWords_eq_operand.1 h
    simp [hmask, Arg.isLegal]
  | illegal k' v' => exact iff_of_false (fun hl => nomatch hl.1) (fun ha => nomatch hlegal _ ha)

theorem staticFault_all (slot : Fin 2) (k v : Word) :
    staticFault slot 0x1F k v =
      if (Arg.ofWords k v).isLegal then none else some (illegalArg slot (Arg.ofWords k v)) :=
  staticFault_eq_of_accepts (fun _ => id)
    (fun o => by cases o <;> simp [Arg.isLegal, Operand.kindWord, Operand.kind, Kind.word]) slot k v

theorem staticFault_register (slot : Fin 2) (k v : Word) :
    staticFault slot 0x01 k v =
      if (Arg.ofWords k v).isRegister then none else some (illegalArg slot (Arg.ofWords k v)) :=
  staticFault_eq_of_accepts (fun _ => Arg.isLegal_of_isRegister)
    (fun o => by cases o <;> simp [Arg.isRegister, Operand.kindWord, Operand.kind, Kind.word]) slot k v

theorem staticFault_symbol (slot : Fin 2) (k v : Word) :
    staticFault slot 0x10 k v =
      if (Arg.ofWords k v).isSymbol then none else some (illegalArg slot (Arg.ofWords k v)) :=
  staticFault_eq_of_accepts (fun _ => Arg.isLegal_of_isSymbol)
    (fun o => by cases o <;> simp [Arg.isSymbol, Operand.kindWord, Operand.kind, Kind.word]) slot k v

/-! ## The advance -/

theorem State.reg_advance_of_mem {s : State} {op : Opcode} {r : Reg} (hr : r = .pc ∨ r = .ar) :
    (s.advance op).reg r = s.reg r + BitVec.ofNat 32 op.size := by
  rw [State.reg_advance, if_pos hr]

/-- A completed instruction that is no transfer adds its size to PC and to AR, each from its own value, where that register is
not its destination (R92, R93). -/
theorem Completed.reg_eq_add_size {i : Instr} {s t : State} {r : Reg} (h : Completed i s t) (hr : r = .pc ∨ r = .ar)
    (hjmp : i.opcode ≠ .jmp) (hcall : i.opcode ≠ .call) (hdst : destinationOf i ≠ some r) :
    t.reg r = s.reg r + BitVec.ofNat 32 i.size := by
  have hst : r ≠ .st := by rintro rfl; simp at hr
  cases h with
  | jmp => exact absurd rfl hjmp
  | call => exact absurd rfl hcall
  | none | halt | assert => exact State.reg_advance_of_mem hr
  | cmp => rw [State.reg_advance_of_mem hr, State.compareFlags_reg]; rfl
  | mov | add | sub =>
    have hd := Ne.symm (mt (congrArg some) hdst)
    rw [State.reg_advance_of_mem hr, State.reg_setReg_of_ne _ hd]
    rfl
  | push =>
    rw [State.reg_advance_of_mem hr, State.reg_setReg_of_ne _ hst, State.setSegment_reg]
    rfl
  | pop =>
    have hd := Ne.symm (mt (congrArg some) hdst)
    rw [State.reg_advance_of_mem hr, State.reg_setReg_of_ne _ hd, State.reg_setReg_of_ne _ hst, State.setSegment_reg]
    rfl

/-! ## Every instruction has an outcome -/

/-- Every arm of the dispatch completes or faults (R90, R135). -/
theorem exec_eq_complete (i : Instr) (s : State) : ∃ r, exec i s = complete s r := by
  cases i with
  | none | halt => exact ⟨.ok _, rfl⟩
  | jmp | mov | cmp | push | pop | add | sub | call | assert => exact ⟨_, rfl⟩

theorem exists_complete_eq_next (s : State) (r : Except EngineFault State) : ∃ t, complete s r = .next t := by
  cases r <;> exact ⟨_, rfl⟩

/-! ## The obligations -/

/-- Settles O2: AR itself is the first address outside, or the words before `codeWords` are read and the one at it is not. -/
theorem fetchOutsideCodeFaults : Obligations.FetchOutsideCodeFaults :=
  ⟨fun _ hr h => step_of_fetch_fault hr (fetch_of_ar_ge h), fun op _ _ => fetchFault op⟩

/-- Settles O3: the words from 11 on are no row's number, and a row's number is its place in the list. -/
theorem opcodeWordSelectsRow : Obligations.OpcodeWordSelectsRow := by
  intro s w hw
  have hread : memRead .code (s.reg .ar + BitVec.ofNat 32 0) s = .ok w := by simpa using hw
  refine ⟨fun hr hge => step_of_fetch_fault hr (decodeWith_of_illegalOpcode hread hge), fun i hf => ?_⟩
  obtain ⟨hop, -⟩ := decodeWith_eq_ok_iff.1 hf
  obtain rfl : i.opcode.number = w := Except.ok.inj (hop.symm.trans hread)
  exact ⟨Opcode.all_getElem?_number _, i.length_args.trans (Opcode.nargs_eq_rawNargs _)⟩

/-- Settles O20: resolving is the operand's accesses and then its value, and the first access that fails gives the fault. -/
theorem resolveFollowsOperandKind : Obligations.ResolveFollowsOperandKind := by
  intro o s
  rw [resolve_eq_faultOr, firstFault_resolveAccesses]
  cases resolutionFault s o <;> rfl

/-- Settles O23: for each mask, the checks pass for the arguments that its slot accepts, and those keep their words. -/
theorem slotsMakeTheStaticChecks : Obligations.SlotsMakeTheStaticChecks := by
  intro slot k v
  rw [staticFault_all, staticFault_register, staticFault_symbol]
  refine ⟨?_, ?_, ?_⟩
  · by_cases h : (Arg.ofWords k v).isLegal = true
    · obtain ⟨o, ho⟩ := isLegal_iff.1 h
      obtain ⟨hk, hv⟩ := Arg.ofWords_eq_operand.1 ho
      rw [if_pos h, ho]
      exact ⟨o, rfl, hk.symm, hv.symm⟩
    · rw [if_neg h]
      exact anySlot_illegal (Bool.eq_false_of_not_eq_true h)
  · by_cases h : (Arg.ofWords k v).isRegister = true
    · obtain ⟨r, hr⟩ := isRegister_iff.1 h
      obtain ⟨hk, hv⟩ := Arg.ofWords_eq_operand.1 hr
      rw [if_pos h, hr]
      exact ⟨r, rfl, hk, hv.symm⟩
    · rw [if_neg h]
      exact registerSlot_illegal (Bool.eq_false_of_not_eq_true h)
  · by_cases h : (Arg.ofWords k v).isSymbol = true
    · obtain ⟨i, hi⟩ := isSymbol_iff.1 h
      obtain ⟨hk, rfl⟩ := Arg.ofWords_eq_operand.1 hi
      rw [if_pos h, hi]
      exact ⟨rfl, hk⟩
    · rw [if_neg h]
      exact symbolSlot_illegal (Bool.eq_false_of_not_eq_true h)

/-- Settles O38: a faulting instruction is excluded, and a completed one advances after its writes. -/
theorem advanceAddsSizeToBoth : Obligations.AdvanceAddsSizeToBoth := by
  intro i s t _ h hrun hjmp hcall
  obtain ⟨f, rfl⟩ | hc := exec_cases h
  · exact absurd rfl hrun
  · exact ⟨hc.reg_eq_add_size (.inl rfl) hjmp hcall, hc.reg_eq_add_size (.inr rfl) hjmp hcall⟩

/-- Settles O1: the fetch reads from Code the words that the list gives. -/
theorem stepRunsDecodedInstruction : Obligations.StepRunsDecodedInstruction := by
  intro s ws i hr hcode hdec
  obtain ⟨hop, hargs⟩ := decodeWith_eq_ok_iff.1 hdec
  have hread {j : Nat} {w : Word} (h : wordAt ws j = .ok w) := hcode j w (wordAt_eq_ok_iff.1 h)
  refine step_of_fetch hr (decodeWith_eq_ok_iff.2 ⟨hread hop, fun k a ha => ?_⟩)
  obtain ⟨kw, vw, hk, hv, rfl⟩ := readArg_eq_ok_iff.1 (hargs k a ha)
  exact readArg_eq_ok_iff.2 ⟨kw, vw, hread hk, hread hv, rfl⟩

/-- Settles O4, from the test of the run state that `step` begins with. -/
theorem noStateChangesUnlessRunning : Obligations.NoStateChangesUnlessRunning :=
  fun _ => step_of_not_running

/-- Settles O6: outside RUNNING the state itself, while RUNNING the fetch's fault or the end of the instruction fetched. -/
theorem everyStepAnswersNext : Obligations.EveryStepAnswersNext := by
  intro s
  by_cases hr : s.run = .running
  · cases hf : fetch s with
    | error f => exact ⟨_, step_of_fetch_fault hr hf⟩
    | ok i =>
      obtain ⟨r, hexec⟩ := exec_eq_complete i s
      rw [step_of_fetch hr hf, hexec]
      exact exists_complete_eq_next s r
  · exact ⟨s, step_of_not_running hr⟩

end Sys2Proof.Machine

/-! NONE and HALT (41_halt_none.md): both halt the run and then take the default advance by one word, with no access that could
fault. -/

namespace Sys2Proof.Machine

/-- The default advance, register by register (R92). -/
theorem State.reg_advance_eq_advanced (s : State) (op : Opcode) (r : Reg) :
    (s.advance op).reg r = advanced op.size r (s.reg r) :=
  s.reg_advance op r

/-- NONE and HALT have one meaning, which completes in every state (R100, R101). -/
theorem exec_eq_next_of_none_or_halt {i : Instr} (hi : i = .none ∨ i = .halt) (s : State) :
    exec i s = .next (State.advance { s with run := .halted } i.opcode) := by
  obtain rfl | rfl := hi <;> rfl

/-- Neither takes an argument word (R50, R54). -/
theorem opcode_size_of_none_or_halt {i : Instr} (hi : i = .none ∨ i = .halt) : i.opcode.size = 1 := by
  obtain rfl | rfl := hi <;> rfl

/-- Settles O7: the completed state is the halted one advanced by one word, and a fetch outside Code is O2's. -/
theorem noneAndHaltEndTheRun : Obligations.NoneAndHaltEndTheRun := by
  refine ⟨rfl, rfl, fun i s hi => ?_, fetchOutsideCodeFaults.1⟩
  refine ⟨_, exec_eq_next_of_none_or_halt hi s, rfl, fun r => ?_, fun _ => rfl, fun seg a => ?_, rfl, rfl, rfl⟩
  · rw [State.reg_advance_eq_advanced, opcode_size_of_none_or_halt hi]
    rfl
  · rw [memRead_advance]
    exact memRead_congr rfl rfl

end Sys2Proof.Machine

/-! JMP (42_jmp.md): the transfer of control to a symbol's location, and the faults of a row whose one slot is SYMBOL. -/

namespace Sys2Proof.Machine

/-- The control transfer, register by register (R105, R120). -/
theorem State.reg_transfer_eq_transferred (s : State) (target : Word) (r : Reg) :
    (s.transfer target).reg r = transferred target r (s.reg r) :=
  s.reg_transfer target r

/-- A transfer to AR from PC = AR writes both registers with the value they hold. -/
theorem State.transfer_ar_of_lockstep {s : State} (h : s.lockstep) : s.transfer (s.reg .ar) = s := by
  have hset : (s.setReg .pc (s.reg .pc)).setReg .ar (s.reg .ar) = s := rfl
  rwa [show s.reg .pc = s.reg .ar from h] at hset

/-- The target of a transfer is not checked: one outside Code is the next step's fetch fault (R105, R82). -/
theorem step_transfer_of_ge {s : State} {target : Word} (hr : s.run = .running) (h : s.cfg.codeWords ≤ target.toNat) :
    step (s.transfer target) = .next ((s.transfer target).takeFault (.outOfBounds .code target)) :=
  fetchOutsideCodeFaults.1 (s.transfer target) hr h

/-- A row that checks its one slot and then looks the symbol up has those two faults, whatever follows them (R105, R120). -/
theorem symbolFaults_of_exec {row : Arg → Instr} {k : State → Word → Except EngineFault State}
    (hexec : ∀ s a, exec (row a) s = complete s (symbolSlot 0 a >>= fun i => symLoc i s >>= k s)) : SymbolFaults row := by
  refine fun s a => ⟨fun ha => ?_, ?_⟩
  · rw [hexec, symbolSlot_illegal ha, error_bind, complete_error]
  · rintro i rfl hi
    rw [hexec, symbolSlot_symbol, ok_bind, symLoc_eq, hi, if_neg Bool.false_ne_true, error_bind, complete_error]

/-- JMP is its slot's check, the lookup and the transfer, in this order (R105). -/
theorem exec_jmp (s : State) (target : Arg) :
    exec (.jmp target) s = complete s (symbolSlot 0 target >>= fun i => symLoc i s >>= fun l => .ok (s.transfer l)) := rfl

/-- JMP to a symbol whose location is known completes with the transfer (R105). -/
theorem exec_jmp_of_hasLocation {s : State} {i : Word} (hi : s.hasLocation i = true) :
    exec (.jmp (.operand (.symbol i))) s = .next (s.transfer (s.locationOf i)) := by
  rw [exec_jmp, symbolSlot_symbol, ok_bind, symLoc_eq, if_pos hi, ok_bind, complete_ok]

/-- Settles O8: the completed state is the transfer to the symbol's location, and the faults are those of the slot, of the lookup
and of the fetch. -/
theorem jmpTransfersToLocation : Obligations.JmpTransfersToLocation := by
  refine ⟨fun _ => rfl, fun s i hi => ?_, symbolFaults_of_exec exec_jmp, fetchFault .jmp⟩
  refine ⟨_, exec_jmp_of_hasLocation hi, s.reg_transfer_eq_transferred _, fun _ => rfl,
    fun seg a => memRead_transfer seg a s _, ⟨rfl, rfl, rfl, rfl⟩, step_transfer_of_ge, fun hlock hloc => ?_⟩
  rw [hloc, State.transfer_ar_of_lockstep hlock]

end Sys2Proof.Machine

/-! MOV, ADD and SUB (43_mov_add_sub.md): the rows that check a REGISTER slot and a slot of any kind and then resolve the source,
and the write of one register with the advance that ends all three. -/

namespace Sys2Proof.Machine

/-! ## Rows with a register and a resolved source -/

theorem resolve_of_no_fault {s : State} {o : Operand} (h : resolutionFault s o = none) :
    resolve o s = .ok (operandValue s o) := by
  rw [resolveFollowsOperandKind, h]

theorem resolve_of_fault {s : State} {o : Operand} {f : EngineFault} (h : resolutionFault s o = some f) :
    resolve o s = .error f := by
  rw [resolveFollowsOperandKind, h]

/-- The row checks slot 0 for a register and slot 1 for any legal operand, resolves that operand, and goes on with `k` (R86, R88):
MOV, ADD, SUB and ASSERT. -/
def ResolvesSource (row : Arg → Arg → Instr) (k : State → Reg → Operand → Word → Except EngineFault State) : Prop :=
  ∀ s a b, exec (row a b) s =
    complete s (registerSlot 0 a >>= fun d => anySlot 1 b >>= fun o => resolve o s >>= k s d o)

section
variable {row : Arg → Arg → Instr} {k : State → Reg → Operand → Word → Except EngineFault State}

/-- With legal operands the row is the resolution of its source and what follows it. -/
theorem ResolvesSource.exec_operands (hrow : ResolvesSource row k) (s : State) (d : Reg) (o : Operand) :
    exec (row (.operand (.register d)) (.operand o)) s = complete s (resolve o s >>= k s d o) :=
  hrow s (.operand (.register d)) (.operand o)

/-- With a source that resolves the row goes on with what the source is worth. -/
theorem ResolvesSource.exec_of_no_fault (hrow : ResolvesSource row k) {s : State} (d : Reg) {o : Operand}
    (h : resolutionFault s o = none) :
    exec (row (.operand (.register d)) (.operand o)) s = complete s (k s d o (operandValue s o)) := by
  rw [hrow.exec_operands, resolve_of_no_fault h, ok_bind]

/-- The faults of such a row, in the order of its checks, whatever follows them (R110, R111, R112, R125). -/
theorem ResolvesSource.faults (hrow : ResolvesSource row k) : RegisterSourceFaults row := by
  refine fun s a b => ⟨fun ha => ?_, fun ha hb => ?_, fun o f ha hb hf => ?_⟩
  · rw [hrow, registerSlot_illegal ha, error_bind, complete_error]
  · obtain ⟨d, rfl⟩ := isRegister_iff.1 ha
    rw [hrow, registerSlot_register, ok_bind, anySlot_illegal hb, error_bind, complete_error]
  · obtain ⟨d, rfl⟩ := isRegister_iff.1 ha
    rw [hb, hrow.exec_operands, resolve_of_fault hf, error_bind, complete_error]

end

theorem resolvesSource_mov : ResolvesSource .mov fun s d _ v => .ok ((s.setReg d v).advance .mov) := fun _ _ _ => rfl

theorem resolvesSource_add : ResolvesSource .add fun s d _ v => .ok ((s.setReg d (s.reg d + v)).advance .add) :=
  fun _ _ _ => rfl

theorem resolvesSource_sub : ResolvesSource .sub fun s d _ v => .ok ((s.setReg d (s.reg d - v)).advance .sub) :=
  fun _ _ _ => rfl

/-! ## The write of a register and the advance -/

/-- The advance starts from the registers as the write left them, PC and AR among them (R92, R93). -/
theorem State.reg_advance_setReg (s : State) (d : Reg) (v : Word) (op : Opcode) (r : Reg) :
    ((s.setReg d v).advance op).reg r = advanced op.size r (if r = d then v else s.reg r) := by
  rw [State.reg_advance_eq_advanced, State.reg_setReg]

/-- Flags, memory, run state, record, capacities and symbol table stay (R110, R111, R112). -/
theorem State.frame_advance_setReg (s : State) (d : Reg) (v : Word) (op : Opcode) :
    sameFlags s ((s.setReg d v).advance op) ∧ sameMemory s ((s.setReg d v).advance op) ∧
      sameControl s ((s.setReg d v).advance op) :=
  ⟨fun f => s.setReg_flag d v f, fun seg a => by rw [memRead_advance, memRead_setReg],
    s.setReg_run d v, s.setReg_fault d v, s.setReg_cfg d v, s.setReg_symtab d v⟩

/-! ## The sum and the difference of two words, over the integers -/

/-- `+32` is the sum over the naturals modulo 2^32 (R4, R111). -/
theorem word_add_eq_ofNat_mod (x y : Word) : x + y = BitVec.ofNat 32 ((x.toNat + y.toNat) % 2 ^ 32) :=
  BitVec.eq_of_toNat_eq (by rw [BitVec.toNat_add, BitVec.toNat_ofNat, Nat.mod_mod])

/-- `-32` is the difference over the integers modulo 2^32 (R4, R112). -/
theorem word_sub_eq_ofInt_emod (x y : Word) : x - y = BitVec.ofInt 32 ((x.toNat - y.toNat : Int) % 2 ^ 32) := by
  apply BitVec.eq_of_toNat_eq
  rw [BitVec.toNat_ofInt, BitVec.toNat_sub]
  omega

/-! ## The obligations -/

/-- Settles O9: the source is resolved, the destination takes it, and the advance follows that write. -/
theorem movWritesResolvedSource : Obligations.MovWritesResolvedSource := by
  refine ⟨fun _ _ => rfl, fun s d o h => ?_, resolvesSource_mov.faults, fetchFault .mov⟩
  exact ⟨_, resolvesSource_mov.exec_of_no_fault d h, s.reg_advance_setReg d _ .mov, s.frame_advance_setReg d _ .mov⟩

/-- Settles O10: as for MOV, with the sum read before the destination is written. -/
theorem addWritesSum : Obligations.AddWritesSum := by
  refine ⟨fun _ _ => rfl, fun s d o h => ?_, resolvesSource_add.faults, fetchFault .add⟩
  rw [← word_add_eq_ofNat_mod]
  exact ⟨_, resolvesSource_add.exec_of_no_fault d h, s.reg_advance_setReg d _ .add, s.frame_advance_setReg d _ .add⟩

/-- Settles O11: as for MOV, with the difference read before the destination is written. -/
theorem subWritesDifference : Obligations.SubWritesDifference := by
  refine ⟨fun _ _ => rfl, fun s d o h => ?_, resolvesSource_sub.faults, fetchFault .sub⟩
  rw [← word_sub_eq_ofInt_emod]
  exact ⟨_, resolvesSource_sub.exec_of_no_fault d h, s.reg_advance_setReg d _ .sub, s.frame_advance_setReg d _ .sub⟩

end Sys2Proof.Machine

/-! PUSH and POP (44_push_pop.md): the move of the stack, one Stack word written and ST set, which both make before PC and AR
advance; what each completes with and faults on; and the pair of the two. -/

namespace Sys2Proof.Machine

/-! ## The move of the stack -/

/-- The Stack word at `a` takes `v` and ST takes `st`: the shared part of PUSH, POP and CALL (R115, R116, R120). -/
def State.moveStack (s : State) (a v st : Word) : State :=
  (s.setSegment .stack (Mem.write s.stack a.toNat v)).setReg .st st

section
variable {s : State} {a v st : Word}

theorem State.reg_moveStack (r : Reg) : (s.moveStack a v st).reg r = if r = .st then st else s.reg r := by
  rw [State.moveStack, State.reg_setReg, State.setSegment_reg]

/-- A state that keeps flags, memory and control of a moved stack has the written word, and differs from the state before in
nothing else of them (R20). -/
theorem frame_of_moveStack {t : State} (hwf : Mem.wf s.stack) (ha : a.toNat < s.cfg.stackWords)
    (h : sameFlags (s.moveStack a v st) t ∧ sameMemory (s.moveStack a v st) t ∧ sameControl (s.moveStack a v st) t) :
    memRead .stack a t = .ok v ∧ sameMemoryBut a s t ∧ sameFlags s t ∧ sameControl s t := by
  obtain ⟨hflags, hmem, hcontrol⟩ := h
  have hread (seg : Segment) (b : Word) :
      memRead seg b t = memRead seg b (s.setSegment .stack (Mem.write s.stack a.toNat v)) :=
    (hmem seg b).trans (memRead_setReg seg b _ .st st)
  exact ⟨(hread .stack a).trans (memRead_written (seg := .stack) hwf ha),
    fun seg b hne => (hread seg b).trans (sameMemoryBut_write_stack hwf a v seg b hne), hflags, hcontrol⟩

end

theorem State.frame_advance (s : State) (op : Opcode) :
    sameFlags s (s.advance op) ∧ sameMemory s (s.advance op) ∧ sameControl s (s.advance op) :=
  ⟨fun _ => rfl, fun seg a => memRead_advance seg a s op, rfl, rfl, rfl, rfl⟩

/-! ## PUSH -/

/-- PUSH checks its slot, resolves the source, writes the Stack at ST, and moves ST up (R115). -/
theorem exec_push (s : State) (src : Arg) :
    exec (.push src) s = complete s (anySlot 0 src >>= fun o => resolve o s >>= fun v =>
      memWrite .stack (s.reg .st) v s >>= fun m => .ok ((m.setReg .st (s.reg .st + 1)).advance .push)) := rfl

/-- The state after a PUSH of `v`. -/
def State.pushed (s : State) (v : Word) : State := (s.moveStack (s.reg .st) v (s.reg .st + 1)).advance .push

theorem State.reg_pushed (s : State) (v : Word) (r : Reg) :
    (s.pushed v).reg r = advanced 3 r (if r = .st then s.reg .st + 1 else s.reg r) := by
  rw [State.pushed, State.reg_advance_eq_advanced, State.reg_moveStack]
  rfl

theorem State.reg_st_pushed_sub_one (s : State) (v : Word) : (s.pushed v).reg .st - 1 = s.reg .st :=
  BitVec.add_sub_cancel (s.reg .st) 1

section
variable {s : State} {o : Operand}

/-- With a source that resolves, PUSH is the write of the Stack and what follows it. -/
theorem exec_push_of_no_fault (h : resolutionFault s o = none) :
    exec (.push (.operand o)) s = complete s (memWrite .stack (s.reg .st) (operandValue s o) s >>= fun m =>
      .ok ((m.setReg .st (s.reg .st + 1)).advance .push)) := by
  rw [exec_push, anySlot_operand, ok_bind, resolve_of_no_fault h, ok_bind]

theorem exec_push_eq_pushed (h : resolutionFault s o = none) (hlt : (s.reg .st).toNat < s.cfg.stackWords) :
    exec (.push (.operand o)) s = .next (s.pushed (operandValue s o)) := by
  rw [exec_push_of_no_fault h, memWrite_of_lt (seg := .stack) hlt, ok_bind, complete_ok]
  rfl

theorem exec_push_of_full (h : resolutionFault s o = none) (hfull : s.cfg.stackWords ≤ (s.reg .st).toNat) :
    exec (.push (.operand o)) s = .next (s.takeFault (.outOfBounds .stack (s.reg .st))) := by
  rw [exec_push_of_no_fault h, memWrite_of_ge (seg := .stack) hfull, error_bind, complete_error]

theorem exec_push_of_resolutionFault {f : EngineFault} (h : resolutionFault s o = some f) :
    exec (.push (.operand o)) s = .next (s.takeFault f) := by
  rw [exec_push, anySlot_operand, ok_bind, resolve_of_fault h, error_bind, complete_error]

theorem exec_push_of_illegal {a : Arg} (h : a.isLegal = false) :
    exec (.push a) s = .next (s.takeFault (illegalArg 0 a)) := by
  rw [exec_push, anySlot_illegal h, error_bind, complete_error]

theorem State.frame_pushed (hwf : Mem.wf s.stack) (hlt : (s.reg .st).toNat < s.cfg.stackWords) (v : Word) :
    memRead .stack (s.reg .st) (s.pushed v) = .ok v ∧ sameMemoryBut (s.reg .st) s (s.pushed v) ∧
      sameFlags s (s.pushed v) ∧ sameControl s (s.pushed v) :=
  frame_of_moveStack hwf hlt (State.frame_advance _ .push)

theorem State.pushed_stack_wf (hwf : Mem.wf s.stack) (v : Word) : Mem.wf (s.pushed v).stack :=
  Mem.write_wf hwf (s.reg .st).toNat v

end

/-! ## POP -/

/-- POP checks its slot, reads the word below ST and zeroes it, moves ST down, and writes the destination last (R116). -/
theorem exec_pop (s : State) (dst : Arg) :
    exec (.pop dst) s = complete s (registerSlot 0 dst >>= fun d => memRead .stack (s.reg .st - 1) s >>= fun v =>
      memWrite .stack (s.reg .st - 1) 0 s >>= fun m =>
        .ok (((m.setReg .st (s.reg .st - 1)).setReg d v).advance .pop)) := rfl

/-- The state after a POP of `v` into `d`. -/
def State.popped (s : State) (d : Reg) (v : Word) : State :=
  ((s.moveStack (s.reg .st - 1) 0 (s.reg .st - 1)).setReg d v).advance .pop

theorem State.reg_popped (s : State) (d : Reg) (v : Word) (r : Reg) :
    (s.popped d v).reg r = advanced 3 r (if r = d then v else if r = .st then s.reg .st - 1 else s.reg r) := by
  rw [State.popped, State.reg_advance_setReg, State.reg_moveStack]
  rfl

section
variable {s : State} {d : Reg} {v : Word}

/-- The write of the zero is within bounds where the read was. -/
theorem exec_pop_eq_popped (h : memRead .stack (s.reg .st - 1) s = .ok v) :
    exec (.pop (.operand (.register d))) s = .next (s.popped d v) := by
  rw [exec_pop, registerSlot_register, ok_bind, h, ok_bind, memWrite_of_lt (memRead_ok h).1, ok_bind, complete_ok]
  rfl

theorem exec_pop_of_outside (h : s.cfg.stackWords ≤ (s.reg .st - 1).toNat) :
    exec (.pop (.operand (.register d))) s = .next (s.takeFault (.outOfBounds .stack (s.reg .st - 1))) := by
  rw [exec_pop, registerSlot_register, ok_bind, memRead_of_ge (seg := .stack) h, error_bind, complete_error]

/-- The address below an empty stack wraps to the last word address, past every capacity (R3, R116). -/
theorem exec_pop_of_empty (hcfg : s.cfg.wf) (h : s.reg .st = 0) :
    exec (.pop (.operand (.register d))) s = .next (s.takeFault (.outOfBounds .stack 0xFFFFFFFF)) := by
  obtain ⟨⟨-, hcap⟩, -⟩ := hcfg
  have haddr : s.reg .st - 1 = 0xFFFFFFFF := by rw [h]; rfl
  rw [← haddr]
  refine exec_pop_of_outside ?_
  rw [haddr]
  exact hcap.trans (by decide)

theorem exec_pop_of_not_register {a : Arg} (h : a.isRegister = false) :
    exec (.pop a) s = .next (s.takeFault (illegalArg 0 a)) := by
  rw [exec_pop, registerSlot_illegal h, error_bind, complete_error]

theorem State.frame_popped (hwf : Mem.wf s.stack) (hlt : (s.reg .st - 1).toNat < s.cfg.stackWords) (d : Reg) (v : Word) :
    memRead .stack (s.reg .st - 1) (s.popped d v) = .ok 0 ∧ sameMemoryBut (s.reg .st - 1) s (s.popped d v) ∧
      sameFlags s (s.popped d v) ∧ sameControl s (s.popped d v) :=
  frame_of_moveStack hwf hlt (State.frame_advance_setReg _ d v .pop)

end

/-! ## PUSH r, then POP r -/

/-- PC and AR take two advances, and one where the register is `r` itself, for POP has written it with the value that PUSH read;
every other register, ST too, keeps its value (R92, R117). -/
theorem State.reg_popped_pushed (s : State) (r q : Reg) :
    ((s.pushed (s.reg r)).popped r (s.reg r)).reg q = advanced 3 q (if q = r then s.reg q else advanced 3 q (s.reg q)) := by
  rw [State.reg_popped, State.reg_st_pushed_sub_one, State.reg_pushed]
  by_cases hr : q = r
  · rw [if_pos hr, if_pos hr, hr]
  · rw [if_neg hr, if_neg hr]
    by_cases hst : q = .st
    · rw [if_pos hst, hst]
      rfl
    · rw [if_neg hst, if_neg hst]

theorem advanced_of_ne {n : Nat} {r : Reg} {v : Word} (hpc : r ≠ .pc) (har : r ≠ .ar) : advanced n r v = v :=
  if_neg (not_or.2 ⟨hpc, har⟩)

/-- The word below ST after a PUSH is the one it wrote, which a POP then yields, leaving 0 there (R117). -/
theorem State.push_pop_slot {s : State} (hwf : Mem.wf s.stack) (hlt : (s.reg .st).toNat < s.cfg.stackWords) (d : Reg)
    (v : Word) :
    memRead .stack ((s.pushed v).reg .st - 1) (s.pushed v) = .ok v ∧
      memRead .stack (s.reg .st) ((s.pushed v).popped d v) = .ok 0 := by
  have hzero := (s.pushed v).frame_popped (s.pushed_stack_wf hwf v) (by rwa [State.reg_st_pushed_sub_one]) d v
  rw [State.reg_st_pushed_sub_one] at hzero ⊢
  exact ⟨(s.frame_pushed hwf hlt v).1, hzero.1⟩

/-! ## The obligations -/

/-- Settles O12: the completed state is the stack moved up and the advance, and the faults are those of the slot, of the
resolution, of the write and of the fetch. -/
theorem pushStoresAtStackTop : Obligations.PushStoresAtStackTop := by
  refine ⟨fun _ => rfl, fun s o hwf h hlt => ?_, fun _ _ => exec_push_of_illegal, fun _ _ _ => exec_push_of_resolutionFault,
    fun _ _ => exec_push_of_full, fetchFault .push⟩
  exact ⟨_, exec_push_eq_pushed h hlt, s.reg_pushed _, s.frame_pushed hwf hlt _⟩

/-- Settles O13: the completed state is the stack moved down, the destination written and the advance, and the faults are those
of the slot, of the read and of the fetch. -/
theorem popLoadsAndZeroesStackTop : Obligations.PopLoadsAndZeroesStackTop := by
  refine ⟨fun _ => rfl, fun s d v hwf h => ?_, fun _ _ => exec_pop_of_not_register, fun _ _ => exec_pop_of_outside,
    fun _ _ => exec_pop_of_empty, fetchFault .pop⟩
  exact ⟨_, exec_pop_eq_popped h, s.reg_popped d v, s.frame_popped hwf (memRead_ok h).1 d v⟩

/-- Settles O18: POP reads the word that PUSH wrote, so the two states are known, and their registers say the rest. -/
theorem pushPopPairing : Obligations.PushPopPairing := by
  intro s r hwf hlt
  obtain ⟨hread, hzero⟩ := s.push_pop_slot hwf hlt r (s.reg r)
  have hpush : exec (.push (.operand (.register r))) s = .next (s.pushed (s.reg r)) := exec_push_eq_pushed rfl hlt
  have hsix (x : Word) : x + 3 + 3 = x + 6 := BitVec.add_assoc x 3 3
  refine ⟨_, _, hpush, exec_pop_eq_popped hread, ?_, hzero, ?_, ?_, ?_⟩
  · exact (s.reg_popped_pushed r .st).trans (ite_self _)
  · intro hpc har
    rw [State.reg_popped_pushed, if_pos rfl, advanced_of_ne hpc har]
  · rintro rfl hlock
    exact ⟨s.reg_popped_pushed .pc .pc, (s.reg_popped_pushed .pc .ar).trans (hlock ▸ hsix _)⟩
  · rintro rfl hlock
    exact ⟨(s.reg_popped_pushed .ar .ar).trans (hlock ▸ rfl), (s.reg_popped_pushed .ar .pc).trans (hsix _)⟩

end Sys2Proof.Machine

/-! CALL (45_call.md): the stack moved up with the return address on it and the control transfer, what it faults on, and the POP
that reads what it pushed. -/

namespace Sys2Proof.Machine

theorem State.frame_transfer (s : State) (target : Word) :
    sameFlags s (s.transfer target) ∧ sameMemory s (s.transfer target) ∧ sameControl s (s.transfer target) :=
  ⟨fun _ => rfl, fun seg a => memRead_transfer seg a s target, rfl, rfl, rfl, rfl⟩

/-- CALL checks its slot, looks the symbol up, writes PC + 3 to the Stack at ST, moves ST up, and transfers (R120). -/
theorem exec_call (s : State) (target : Arg) :
    exec (.call target) s = complete s (symbolSlot 0 target >>= fun i => symLoc i s >>= fun l =>
      memWrite .stack (s.reg .st) (s.reg .pc + 3) s >>= fun m => .ok ((m.setReg .st (s.reg .st + 1)).transfer l)) := rfl

/-- The state after a CALL of the location `l`. -/
def State.called (s : State) (l : Word) : State := (s.moveStack (s.reg .st) (s.reg .pc + 3) (s.reg .st + 1)).transfer l

theorem State.reg_called (s : State) (l : Word) (r : Reg) :
    (s.called l).reg r = transferred l r (if r = .st then s.reg .st + 1 else s.reg r) := by
  rw [State.called, State.reg_transfer_eq_transferred, State.reg_moveStack]

theorem State.reg_st_called_sub_one (s : State) (l : Word) : (s.called l).reg .st - 1 = s.reg .st :=
  BitVec.add_sub_cancel (s.reg .st) 1

section
variable {s : State} {i : Word}

/-- With a symbol whose location is known, CALL is the write of the Stack and what follows it. -/
theorem exec_call_of_hasLocation (hi : s.hasLocation i = true) :
    exec (.call (.operand (.symbol i))) s = complete s (memWrite .stack (s.reg .st) (s.reg .pc + 3) s >>= fun m =>
      .ok ((m.setReg .st (s.reg .st + 1)).transfer (s.locationOf i))) := by
  rw [exec_call, symbolSlot_symbol, ok_bind, symLoc_eq, if_pos hi, ok_bind]

theorem exec_call_eq_called (hi : s.hasLocation i = true) (hlt : (s.reg .st).toNat < s.cfg.stackWords) :
    exec (.call (.operand (.symbol i))) s = .next (s.called (s.locationOf i)) := by
  rw [exec_call_of_hasLocation hi, memWrite_of_lt (seg := .stack) hlt, ok_bind, complete_ok]
  rfl

theorem exec_call_of_full (hi : s.hasLocation i = true) (hfull : s.cfg.stackWords ≤ (s.reg .st).toNat) :
    exec (.call (.operand (.symbol i))) s = .next (s.takeFault (.outOfBounds .stack (s.reg .st))) := by
  rw [exec_call_of_hasLocation hi, memWrite_of_ge (seg := .stack) hfull, error_bind, complete_error]

theorem State.frame_called (hwf : Mem.wf s.stack) (hlt : (s.reg .st).toNat < s.cfg.stackWords) (l : Word) :
    memRead .stack (s.reg .st) (s.called l) = .ok (s.reg .pc + 3) ∧ sameMemoryBut (s.reg .st) s (s.called l) ∧
      sameFlags s (s.called l) ∧ sameControl s (s.called l) :=
  frame_of_moveStack hwf hlt (State.frame_transfer _ l)

/-- The word below ST after a CALL is the return address (R121). -/
theorem State.memRead_called_top (hwf : Mem.wf s.stack) (hlt : (s.reg .st).toNat < s.cfg.stackWords) (l : Word) :
    memRead .stack ((s.called l).reg .st - 1) (s.called l) = .ok (s.reg .pc + 3) := by
  rw [State.reg_st_called_sub_one]
  exact (s.frame_called hwf hlt l).1

/-- A target outside Code is the next step's fetch fault, for CALL keeps the run state and the capacities (R82, R120). -/
theorem State.step_called_of_ge {l : Word} (hr : s.run = .running) (hl : s.cfg.codeWords ≤ l.toNat) :
    step (s.called l) = .next ((s.called l).takeFault (.outOfBounds .code l)) :=
  step_transfer_of_ge hr hl

end

/-! ## The obligations -/

/-- Settles O14: the completed state is the stack moved up and the transfer, and the faults are those of the slot, of the lookup,
of the write and of the fetch. -/
theorem callPushesReturnAddress : Obligations.CallPushesReturnAddress := by
  refine ⟨fun _ => rfl, fun s i hwf hi hlt => ?_, symbolFaults_of_exec exec_call, fun _ _ => exec_call_of_full,
    fetchFault .call⟩
  obtain ⟨hread, hmem, hflags, hcontrol⟩ := s.frame_called hwf hlt (s.locationOf i)
  exact ⟨_, exec_call_eq_called hi hlt, s.reg_called _, hread, hmem, hflags, hcontrol, State.step_called_of_ge⟩

/-- Settles O19: POP reads the return address that CALL wrote, so the two states are known; the advance of POP adds 3 more where
its destination is AR. -/
theorem callThenPopGivesReturnAddress : Obligations.CallThenPopGivesReturnAddress := by
  intro s i r hwf hi hlt
  refine ⟨_, _, exec_call_eq_called hi hlt, exec_pop_eq_popped (State.memRead_called_top hwf hlt _), ?_, ?_, ?_⟩
  · intro hst
    rw [State.reg_popped, if_neg (Ne.symm hst), if_pos rfl, State.reg_st_called_sub_one]
    rfl
  · intro hpc har
    rw [State.reg_popped, if_pos rfl, advanced_of_ne hpc har]
  · rintro rfl
    rw [State.reg_popped, if_pos rfl]
    rfl

end Sys2Proof.Machine

/-! ASSERT and CMP (46_assert_cmp.md): the test of two words, which ends in a fault or in the advance alone, and the three flags
that a difference sets, with the sign of the wrapped difference against the true one. -/

namespace Sys2Proof.Machine

/-! ## ASSERT -/

theorem resolvesSource_assert : ResolvesSource .assert fun s ra o v =>
    if s.reg ra = v then .ok (s.advance .assert) else .error (.assertionFailed ra (s.reg ra) o v) := fun _ _ _ => rfl

/-! ## CMP -/

/-- CMP checks both slots, then resolves both operands, and sets the flags from the difference (R126). -/
theorem exec_cmp (s : State) (a b : Arg) :
    exec (.cmp a b) s = complete s (anySlot 0 a >>= fun oa => anySlot 1 b >>= fun ob => resolve oa s >>= fun av =>
      resolve ob s >>= fun bv => .ok ((s.compareFlags (av - bv)).advance .cmp)) := rfl

/-- With legal operands CMP is the two resolutions and the flags. -/
theorem exec_cmp_operands (s : State) (a b : Operand) :
    exec (.cmp (.operand a) (.operand b)) s = complete s (resolve a s >>= fun av => resolve b s >>= fun bv =>
      .ok ((s.compareFlags (av - bv)).advance .cmp)) := rfl

/-- The state after a CMP of words with difference `d`. -/
def State.compared (s : State) (d : Word) : State := (s.compareFlags d).advance .cmp

section
variable {s : State}

theorem exec_cmp_of_illegal_left {a b : Arg} (ha : a.isLegal = false) :
    exec (.cmp a b) s = .next (s.takeFault (illegalArg 0 a)) := by
  rw [exec_cmp, anySlot_illegal ha, error_bind, complete_error]

theorem exec_cmp_of_illegal_right {a b : Arg} (ha : a.isLegal = true) (hb : b.isLegal = false) :
    exec (.cmp a b) s = .next (s.takeFault (illegalArg 1 b)) := by
  obtain ⟨o, rfl⟩ := isLegal_iff.1 ha
  rw [exec_cmp, anySlot_operand, ok_bind, anySlot_illegal hb, error_bind, complete_error]

variable {a b : Operand} {f : EngineFault}

theorem exec_cmp_of_fault_left (ha : resolutionFault s a = some f) :
    exec (.cmp (.operand a) (.operand b)) s = .next (s.takeFault f) := by
  rw [exec_cmp_operands, resolve_of_fault ha, error_bind, complete_error]

theorem exec_cmp_of_fault_right (ha : resolutionFault s a = none) (hb : resolutionFault s b = some f) :
    exec (.cmp (.operand a) (.operand b)) s = .next (s.takeFault f) := by
  rw [exec_cmp_operands, resolve_of_no_fault ha, ok_bind, resolve_of_fault hb, error_bind, complete_error]

theorem exec_cmp_eq_compared (ha : resolutionFault s a = none) (hb : resolutionFault s b = none) :
    exec (.cmp (.operand a) (.operand b)) s = .next (s.compared (operandValue s a - operandValue s b)) := by
  rw [exec_cmp_operands, resolve_of_no_fault ha, ok_bind, resolve_of_no_fault hb, ok_bind, complete_ok]
  rfl

end

/-! ## What a comparison leaves unchanged -/

theorem State.reg_compared (s : State) (d : Word) (r : Reg) : (s.compared d).reg r = advanced 5 r (s.reg r) := by
  rw [State.compared, State.reg_advance_eq_advanced, State.compareFlags_reg]
  rfl

theorem State.frame_compared (s : State) (d : Word) : sameMemory s (s.compared d) ∧ sameControl s (s.compared d) :=
  ⟨fun seg a => by rw [State.compared, memRead_advance, memRead_compareFlags], rfl, rfl, rfl, rfl⟩

/-! ## The flags of a comparison -/

/-- What a flag takes from a condition. -/
theorem ofNat_bit (b : Bool) : BitVec.ofNat 1 (bit b) = if b then 1 else 0 := by cases b <;> rfl

/-- The one bits counted one by one, as a sum of bits (R4). -/
theorem popcount_eq_sum {w : Nat} (v : BitVec w) :
    popcount v = ((List.range w).map fun j => (v.getLsbD j).toNat).sum := by
  unfold popcount
  induction List.range w with
  | nil => rfl
  | cons j js ih =>
    rw [List.filter_cons, List.map_cons, List.sum_cons, ← ih]
    cases v.getLsbD j
    · exact (Nat.zero_add _).symm
    · exact Nat.add_comm _ 1

/-- Bit `j` of the low byte is bit `j` of the word. -/
theorem popcount_lowByte (d : Word) :
    popcount (d.extractLsb 7 0) = ((List.range 8).map fun j => (d.getLsbD j).toNat).sum := by
  rw [popcount_eq_sum]
  refine congrArg List.sum (List.map_congr_left fun j hj => ?_)
  have hlt : j < 7 - 0 + 1 := List.mem_range.1 hj
  rw [BitVec.getLsbD_extractLsb, decide_eq_true hlt, Bool.true_and, Nat.zero_add]

theorem State.flag_zf_compared (s : State) (x y : Word) : (s.compared (x - y)).flag .zf = if x = y then 1 else 0 :=
  (ofNat_bit (x - y == 0)).trans (if_congr (beq_iff_eq.trans sub_eq_zero) rfl rfl)

theorem State.flag_pf_compared (s : State) (d : Word) :
    (s.compared d).flag .pf =
      if ((List.range 8).map fun j => (d.getLsbD j).toNat).sum % 2 = 0 then 1 else 0 := by
  rw [← popcount_lowByte]
  exact (ofNat_bit (popcount (d.extractLsb 7 0) % 2 == 0)).trans (if_congr beq_iff_eq rfl rfl)

theorem State.flag_s_compared (s : State) (d : Word) : (s.compared d).flag .s = s.flag .s := rfl

/-- SF is the sign bit of the difference. -/
theorem State.flag_sf_compared (s : State) (d : Word) : (s.compared d).flag .sf = if d.msb then 1 else 0 := by
  rw [BitVec.msb_eq_getLsbD_last]
  exact ofNat_bit (d.getLsbD 31)

theorem State.flag_sf_compared_eq_one_iff (s : State) (d : Word) : (s.compared d).flag .sf = 1 ↔ d.toInt < 0 := by
  rw [State.flag_sf_compared, BitVec.msb_eq_toInt]
  simp

/-- The sign bit is what remains of a word shifted right by 31 (R126). -/
theorem msb_eq_ofNat_div (d : Word) : (if d.msb then 1 else 0 : BitVec 1) = BitVec.ofNat 1 (d.toNat / 2 ^ 31) := by
  have hd := d.isLt
  simp only [BitVec.msb_eq_decide, decide_eq_true_eq]
  split
  · next hge =>
    rw [show d.toNat / 2 ^ 31 = 1 by omega]
    rfl
  · next hlt =>
    rw [Nat.div_eq_of_lt (Nat.not_le.1 hlt)]
    rfl

/-! ## The sign of the wrapped difference -/

/-- The wrapped difference of two words is the true signed one where that fits in 32 signed bits. -/
theorem toInt_sub_of_fits {x y : Word} (h : -2 ^ 31 ≤ x.toInt - y.toInt ∧ x.toInt - y.toInt < 2 ^ 31) :
    (x - y).toInt = x.toInt - y.toInt := by
  rw [BitVec.toInt_sub]
  exact Int.bmod_eq_of_le h.1 h.2

/-- On signed overflow the wrapped difference is off by 2^32 and has the opposite sign. -/
theorem toInt_sub_neg_iff_of_overflow {x y : Word} (h : ¬(-2 ^ 31 ≤ x.toInt - y.toInt ∧ x.toInt - y.toInt < 2 ^ 31)) :
    (x - y).toInt < 0 ↔ 0 ≤ x.toInt - y.toInt := by
  have hx := x.toInt_lt
  have hx' := x.le_toInt
  have hy := y.toInt_lt
  have hy' := y.le_toInt
  rw [BitVec.toInt_sub, Int.bmod_def]
  omega

/-! ## The obligations -/

/-- Settles O15: the test of the two words ends in the advance or in the fault, after the checks of a REGISTER slot and a
resolved source. -/
theorem assertComparesWords : Obligations.AssertComparesWords := by
  refine ⟨fun _ _ => rfl, fun s ra o h heq => ?_, fun s ra o h hne => ?_, resolvesSource_assert.faults, fetchFault .assert⟩
  · refine ⟨s.advance .assert, ?_, s.reg_advance_eq_advanced .assert, s.frame_advance .assert⟩
    rw [resolvesSource_assert.exec_of_no_fault ra h, if_pos heq, complete_ok]
  · rw [resolvesSource_assert.exec_of_no_fault ra h, if_neg hne, complete_error]

/-- Settles O16: each flag reads its own bit of the difference, and the faults are those of slot 0, of slot 1, of the two
resolutions in that order, and of the fetch. -/
theorem cmpSetsFlagsFromDifference : Obligations.CmpSetsFlagsFromDifference := by
  refine ⟨fun _ _ => rfl, fun s a b ha hb => ?_, fun s a b => ⟨exec_cmp_of_illegal_left, exec_cmp_of_illegal_right⟩,
    fun _ _ _ _ => exec_cmp_of_fault_left, fun _ _ _ _ => exec_cmp_of_fault_right, fetchFault .cmp⟩
  exact ⟨_, exec_cmp_eq_compared ha hb, s.flag_zf_compared _ _, (s.flag_sf_compared _).trans (msb_eq_ofNat_div _),
    s.flag_pf_compared _, s.flag_s_compared _, s.reg_compared _, s.frame_compared _⟩

/-- Settles O17: SF is the sign of the wrapped difference, which is the true one or, on overflow, off by 2^32. -/
theorem cmpSignFlagAndSignedOverflow : Obligations.CmpSignFlagAndSignedOverflow := by
  intro s a b t ha hb h d
  obtain rfl := Host.Outcome.next.inj ((exec_cmp_eq_compared ha hb).symm.trans h)
  rw [State.flag_sf_compared_eq_one_iff]
  split
  · next hfits => rw [toInt_sub_of_fits hfits]
  · next hover => exact toInt_sub_neg_iff_of_overflow hover

end Sys2Proof.Machine

/-! Exceptions (60_exceptions.md): the checks of R134 read from the raw words, which are those of the fetch, of the slots, of the
operand accesses and of ASSERT; and what a fault records and leaves. -/

namespace Sys2Proof.Machine

/-! ## The checks of R134, group by group, for a row of the opcode map -/

theorem firstOf_cons (c : Option EngineFault) (cs : List (Option EngineFault)) : firstOf (c :: cs) = c.or (firstOf cs) := by
  cases c <;> rfl

/-- The fetch faults of the two words of an argument, in ascending order (R82, R84). -/
def argFetchFault (s : State) (k : Nat) : Option EngineFault := (fetchFaultAt s (1 + 2 * k)).or (fetchFaultAt s (2 + 2 * k))

/-- Item 3: the fetch faults of the argument words of a row. -/
def argsFetchFault (s : State) (op : Opcode) : Option EngineFault :=
  (if 1 ≤ op.nargs then argFetchFault s 0 else none).or (if 2 ≤ op.nargs then argFetchFault s 1 else none)

/-- Items 4 to 6: the static checks of a row, slot 0 first. -/
def argsStaticFault (s : State) (op : Opcode) : Option EngineFault :=
  (if 1 ≤ op.nargs then staticFault 0 (rawMasks op.number.toNat).1 (s.wordAtOffset 1) (s.wordAtOffset 2) else none).or
    (if 2 ≤ op.nargs then staticFault 1 (rawMasks op.number.toNat).2 (s.wordAtOffset 3) (s.wordAtOffset 4) else none)

/-- Item 7: the resolution of a row's arguments, slot 0 first. -/
def argsResolutionFault (s : State) (op : Opcode) : Option EngineFault :=
  (if 1 ≤ op.nargs then rawResolutionFault s (s.wordAtOffset 1) (s.wordAtOffset 2) else none).or
    (if 2 ≤ op.nargs then rawResolutionFault s (s.wordAtOffset 3) (s.wordAtOffset 4) else none)

/-- Item 8: the row's own check. -/
def rowFault (s : State) (op : Opcode) : Option EngineFault :=
  ownFault s op.number.toNat (s.wordAtOffset 1) (s.wordAtOffset 2) (s.wordAtOffset 3) (s.wordAtOffset 4)

section
variable {s : State}

theorem fetchFaultAt_zero_of_lt (h : (s.reg .ar).toNat < s.cfg.codeWords) : fetchFaultAt s 0 = none := if_pos h

theorem stepFault_of_ar_ge (h : s.cfg.codeWords ≤ (s.reg .ar).toNat) :
    stepFault s = some (.outOfBounds .code (s.reg .ar)) := by
  simp [stepFault, firstOf_cons, fetchFaultAt, Nat.not_lt.2 h]

variable (har : (s.reg .ar).toNat < s.cfg.codeWords)
include har

theorem stepFault_of_illegalOpcode (hw : 11 ≤ (s.wordAtOffset 0).toNat) :
    stepFault s = some (.illegalOpcode (s.wordAtOffset 0)) := by
  simp [stepFault, firstOf_cons, fetchFaultAt_zero_of_lt har, hw]

/-- Past the opcode word the checks of a step are those of the row it selects (R134). -/
theorem stepFault_of_opcode {op : Opcode} (hop : s.wordAtOffset 0 = op.number) :
    stepFault s =
      (argsFetchFault s op).or ((argsStaticFault s op).or ((argsResolutionFault s op).or (rowFault s op))) := by
  have hw : ¬ 11 ≤ op.number.toNat := by cases op <;> decide
  simp only [stepFault, hop, ← Opcode.nargs_eq_rawNargs, firstOf_cons, fetchFaultAt_zero_of_lt har, if_neg hw,
    argsFetchFault, argFetchFault, argsStaticFault, argsResolutionFault, rowFault]
  by_cases h1 : 1 ≤ op.nargs <;> by_cases h2 : 2 ≤ op.nargs <;> simp [h1, h2, Option.or_assoc, firstOf]

end

/-! ## The instruction at AR -/

/-- The argument whose two Code words stand at its slot from AR (R50). -/
def State.rawArg (s : State) (k : Nat) : Arg := Arg.ofWords (s.wordAtOffset (1 + 2 * k)) (s.wordAtOffset (2 + 2 * k))

/-- The words from AR on are read as this instruction: its opcode number, then its arguments at their slots (R50, R83, R84),
whether or not they all lie in Code. -/
structure StandsAtAr (s : State) (i : Instr) : Prop where
  opcode : s.wordAtOffset 0 = i.opcode.number
  args : ∀ k a, i.args[k]? = some a → a = s.rawArg k

theorem exists_standsAtAr {s : State} {op : Opcode} (h : s.wordAtOffset 0 = op.number) :
    ∃ i, StandsAtAr s i ∧ i.opcode = op := by
  obtain ⟨i, rfl, hargs⟩ := exists_instr (op := op) (as := (List.range op.nargs).map s.rawArg) (by simp)
  refine ⟨i, ⟨h, fun k a ha => ?_⟩, rfl⟩
  obtain ⟨hk, rfl⟩ := List.getElem?_eq_some_iff.1 (hargs ▸ ha)
  simp

theorem StandsAtAr.words {s : State} {i : Instr} {k : Nat} {o : Operand} (hi : StandsAtAr s i)
    (ha : i.args[k]? = some (.operand o)) :
    s.wordAtOffset (1 + 2 * k) = o.kindWord ∧ s.wordAtOffset (2 + 2 * k) = o.valueWord :=
  Arg.ofWords_eq_operand.1 (hi.args k _ ha).symm

/-! ## Items 1 to 3: the fetch -/

/-- The Code reads of an argument, where its addresses do not wrap. -/
theorem readArg_code {s : State} {k : Nat} (h : (s.reg .ar).toNat + (2 + 2 * k) < 2 ^ 32) :
    readArg (fun j => memRead .code (s.reg .ar + BitVec.ofNat 32 j) s) k =
      faultOr (argFetchFault s k) (.ok (s.rawArg k)) := by
  simp only [readArg, memRead_code_offset (s := s) (j := 1 + 2 * k) (by omega), memRead_code_offset h, faultOr_bind,
    ok_bind, pure_eq_ok, faultOr_faultOr]
  rfl

theorem fetch_eq_faultOr {s : State} {i : Instr} (hi : StandsAtAr s i) (har : (s.reg .ar).toNat < s.cfg.codeWords)
    (hcap : s.cfg.codeWords ≤ 2 ^ 31) : fetch s = faultOr (argsFetchFault s i.opcode) (.ok i) := by
  have hop : memRead .code (s.reg .ar + BitVec.ofNat 32 0) s = .ok i.opcode.number := by
    rw [memRead_code_offset (by omega), fetchFaultAt_zero_of_lt har, faultOr_none, hi.opcode]
  have hread0 := readArg_code (s := s) (k := 0) (by omega)
  have hread1 := readArg_code (s := s) (k := 1) (by omega)
  simp only [fetch, decodeWith, hop, ok_bind, Opcode.ofWord_number]
  cases i with
  | none | halt => rfl
  | jmp | push | pop | call =>
    obtain rfl := hi.args 0 _ rfl
    simp [Instr.opcode, hread0, argsFetchFault, Opcode.nargs]
  | mov | cmp | add | sub | assert =>
    obtain rfl := hi.args 0 _ rfl
    obtain rfl := hi.args 1 _ rfl
    simp [Instr.opcode, hread0, hread1, argsFetchFault, Opcode.nargs]

/-- The fetch's fault comes before any check of the instruction. -/
theorem step_of_fetch_faultOr {s : State} {i : Instr} {f g : Option EngineFault} {r : Except EngineFault State}
    (hr : s.run = .running) (hf : fetch s = faultOr f (.ok i)) (he : exec i s = complete s (faultOr g r)) :
    step s = complete s (faultOr (f.or g) r) := by
  cases f with
  | none => rw [step_of_fetch hr hf, he, Option.none_or]
  | some f => rw [step_of_fetch_fault hr hf, Option.some_or, faultOr_some, complete_error]

/-! ## Items 4 to 6: the static checks -/

/-- Either the static checks pass and the instruction is well-formed, or the first that fails is the fault it takes. -/
def StaticChecksDecide (i : Instr) (s : State) (checks : Option EngineFault) : Prop :=
  (checks = none ∧ i.wf = true) ∨ ∃ f, checks = some f ∧ exec i s = .next (s.takeFault f)

theorem staticChecksDecide_of_slots {i : Instr} {s : State} {checks : Option EngineFault} {a b : Bool} {f g : EngineFault}
    (hchecks : checks = (if a then none else some f).or (if b then none else some g)) (hwf : i.wf = (a && b))
    (ha : a = false → exec i s = .next (s.takeFault f)) (hb : a = true → b = false → exec i s = .next (s.takeFault g)) :
    StaticChecksDecide i s checks := by
  subst hchecks
  cases a with
  | false => exact .inr ⟨f, rfl, ha rfl⟩
  | true =>
    cases b with
    | false => exact .inr ⟨g, rfl, hb rfl rfl⟩
    | true => exact .inl ⟨rfl, hwf⟩

theorem staticChecksDecide_of_slot {i : Instr} {s : State} {check : Option EngineFault} {f : EngineFault}
    (hcheck : check = if i.wf then none else some f) (hf : i.wf = false → exec i s = .next (s.takeFault f)) :
    StaticChecksDecide i s (check.or none) :=
  staticChecksDecide_of_slots (b := true) (g := f) (congrArg (Option.or · none) hcheck) (Bool.and_true _).symm hf nofun

theorem StandsAtAr.staticChecksDecide_of_faults {s : State} {row : Arg → Arg → Instr} {a b : Arg} {op : Opcode}
    (hi : StandsAtAr s (row a b)) (hrow : RegisterSourceFaults row) (hargs : (row a b).args = [a, b])
    (hchecks : argsStaticFault s op =
      (staticFault 0 0x01 (s.wordAtOffset 1) (s.wordAtOffset 2)).or (staticFault 1 0x1F (s.wordAtOffset 3) (s.wordAtOffset 4)))
    (hwf : (row a b).wf = (a.isRegister && b.isLegal)) : StaticChecksDecide (row a b) s (argsStaticFault s op) := by
  obtain rfl := hi.args 0 a (by rw [hargs]; rfl)
  obtain rfl := hi.args 1 b (by rw [hargs]; rfl)
  obtain ⟨h0, h1, -⟩ := hrow s (s.rawArg 0) (s.rawArg 1)
  refine staticChecksDecide_of_slots ?_ hwf h0 h1
  rw [hchecks, staticFault_register, staticFault_all]
  rfl

theorem StandsAtAr.staticChecksDecide {s : State} {i : Instr} (hi : StandsAtAr s i) :
    StaticChecksDecide i s (argsStaticFault s i.opcode) := by
  cases i with
  | none | halt => exact .inl ⟨rfl, rfl⟩
  | jmp a =>
    obtain rfl := hi.args 0 _ rfl
    exact staticChecksDecide_of_slot (staticFault_symbol 0 _ _) (symbolFaults_of_exec exec_jmp s _).1
  | call a =>
    obtain rfl := hi.args 0 _ rfl
    exact staticChecksDecide_of_slot (staticFault_symbol 0 _ _) (symbolFaults_of_exec exec_call s _).1
  | push a =>
    obtain rfl := hi.args 0 _ rfl
    exact staticChecksDecide_of_slot (staticFault_all 0 _ _) exec_push_of_illegal
  | pop a =>
    obtain rfl := hi.args 0 _ rfl
    exact staticChecksDecide_of_slot (staticFault_register 0 _ _) exec_pop_of_not_register
  | cmp a b =>
    obtain rfl := hi.args 0 _ rfl
    obtain rfl := hi.args 1 _ rfl
    exact staticChecksDecide_of_slots (congrArg₂ Option.or (staticFault_all 0 _ _) (staticFault_all 1 _ _)) rfl
      exec_cmp_of_illegal_left exec_cmp_of_illegal_right
  | mov a b => exact hi.staticChecksDecide_of_faults resolvesSource_mov.faults rfl rfl rfl
  | add a b => exact hi.staticChecksDecide_of_faults resolvesSource_add.faults rfl rfl rfl
  | sub a b => exact hi.staticChecksDecide_of_faults resolvesSource_sub.faults rfl rfl rfl
  | assert a b => exact hi.staticChecksDecide_of_faults resolvesSource_assert.faults rfl rfl rfl

/-! ## Items 7 and 8: the resolution and the instruction's own check -/

theorem rawResolutionFault_operand (s : State) (o : Operand) :
    rawResolutionFault s o.kindWord o.valueWord = resolutionFault s o := by cases o <;> rfl

theorem rawValue_operand (s : State) (o : Operand) : rawValue s o.kindWord o.valueWord = operandValue s o := by
  cases o with
  | register r => cases r <;> rfl
  | integer | value | address | symbol => rfl

section
variable {s : State} {i : Instr}

theorem StandsAtAr.rawResolutionFault {k : Nat} {o : Operand} (hi : StandsAtAr s i) (ha : i.args[k]? = some (.operand o)) :
    rawResolutionFault s (s.wordAtOffset (1 + 2 * k)) (s.wordAtOffset (2 + 2 * k)) = resolutionFault s o := by
  obtain ⟨hk, hv⟩ := hi.words ha
  rw [hk, hv, rawResolutionFault_operand]

theorem argsResolutionFault_one {o : Operand} (hi : StandsAtAr s i) (hargs : i.args = [.operand o]) :
    argsResolutionFault s i.opcode = resolutionFault s o := by
  have hres := hi.rawResolutionFault (k := 0) (by rw [hargs]; rfl)
  have hn : i.opcode.nargs = 1 := by rw [← i.length_args, hargs]; rfl
  rw [argsResolutionFault, hn, if_pos le_rfl, if_neg (by decide), Option.or_none, hres]

theorem argsResolutionFault_two {a b : Operand} (hi : StandsAtAr s i) (hargs : i.args = [.operand a, .operand b]) :
    argsResolutionFault s i.opcode = (resolutionFault s a).or (resolutionFault s b) := by
  have hres0 := hi.rawResolutionFault (k := 0) (by rw [hargs]; rfl)
  have hres1 := hi.rawResolutionFault (k := 1) (by rw [hargs]; rfl)
  have hn : i.opcode.nargs = 2 := by rw [← i.length_args, hargs]; rfl
  rw [argsResolutionFault, hn, if_pos (by decide), if_pos le_rfl, hres0, hres1]

end

/-- The Stack bound, as the fault of the access that meets it (R33). -/
theorem fault_read_stack (s : State) (a : Word) :
    (Access.read .stack a).fault s = if a.toNat < s.cfg.stackWords then none else some (.outOfBounds .stack a) := by
  simp only [Access.fault_read, ← Nat.not_lt, ite_not]
  rfl

theorem rowFault_push (s : State) : rowFault s .push = (Access.read .stack (s.reg .st)).fault s := by
  rw [fault_read_stack]
  rfl

theorem rowFault_call (s : State) : rowFault s .call = (Access.read .stack (s.reg .st)).fault s := by
  rw [fault_read_stack]
  rfl

theorem rowFault_pop (s : State) : rowFault s .pop = (Access.read .stack (s.reg .st - 1)).fault s := by
  rw [fault_read_stack]
  rfl

theorem rowFault_assert {s : State} {ra : Reg} {o : Operand}
    (hi : StandsAtAr s (.assert (.operand (.register ra)) (.operand o))) :
    rowFault s .assert = if s.reg ra = operandValue s o then none
      else some (.assertionFailed ra (s.reg ra) o (operandValue s o)) := by
  obtain ⟨hk0, hv0⟩ := hi.words (k := 0) rfl
  obtain ⟨hk1, hv1⟩ := hi.words (k := 1) rfl
  have hra : Arg.ofWords (Operand.register ra).kindWord (Operand.register ra).valueWord = .operand (.register ra) :=
    Arg.ofWords_eq_operand.2 ⟨rfl, rfl⟩
  have ho : Arg.ofWords o.kindWord o.valueWord = .operand o := Arg.ofWords_eq_operand.2 ⟨rfl, rfl⟩
  have hreg : operandValue s (.register ra) = s.reg ra := rfl
  simp only [rowFault, ownFault, hk0, hv0, hk1, hv1, hra, ho, rawValue_operand, hreg]
  by_cases h : s.reg ra = operandValue s o <;> simp [Opcode.number, h]

/-- Where the static checks have passed, items 7 and 8 are the operand accesses in their order (R46), but for the test of
ASSERT. -/
theorem firstFault_operandAccesses {s : State} {i : Instr} (hi : StandsAtAr s i) (hwf : i.wf = true)
    (hne : i.opcode ≠ .assert) :
    firstFault s (operandAccesses i s) = (argsResolutionFault s i.opcode).or (rowFault s i.opcode) := by
  have harg (o : Operand) : firstFault s (argAccesses (.operand o) s) = resolutionFault s o := firstFault_resolveAccesses o s
  cases i with
  | none | halt => rfl
  | jmp target =>
    obtain ⟨j, rfl⟩ := isSymbol_iff.1 hwf
    rw [argsResolutionFault_one hi rfl, operandAccesses, harg]
    exact Option.or_none.symm
  | call target =>
    obtain ⟨j, rfl⟩ := isSymbol_iff.1 hwf
    rw [argsResolutionFault_one hi rfl, operandAccesses, firstFault_append, harg, Instr.opcode, rowFault_call]
    simp
  | push src =>
    obtain ⟨o, rfl⟩ := isLegal_iff.1 hwf
    rw [argsResolutionFault_one hi rfl, operandAccesses, firstFault_append, harg, Instr.opcode, rowFault_push]
    simp
  | pop dst =>
    obtain ⟨d, rfl⟩ := isRegister_iff.1 hwf
    rw [argsResolutionFault_one hi rfl, operandAccesses, Instr.opcode, rowFault_pop]
    simp [resolutionFault]
  | mov dst src | add dst src | sub dst src =>
    obtain ⟨hdst, hsrc⟩ := Bool.and_eq_true_iff.1 hwf
    obtain ⟨d, rfl⟩ := isRegister_iff.1 hdst
    obtain ⟨o, rfl⟩ := isLegal_iff.1 hsrc
    rw [argsResolutionFault_two hi rfl, operandAccesses, harg]
    exact Option.or_none.symm
  | cmp a b =>
    obtain ⟨ha, hb⟩ := Bool.and_eq_true_iff.1 hwf
    obtain ⟨oa, rfl⟩ := isLegal_iff.1 ha
    obtain ⟨ob, rfl⟩ := isLegal_iff.1 hb
    rw [argsResolutionFault_two hi rfl, operandAccesses, firstFault_append, harg, harg]
    exact Option.or_none.symm
  | assert => exact absurd rfl hne

theorem exec_eq_checks {s : State} {i : Instr} (hi : StandsAtAr s i) (hr : s.run = .running) (hwf : i.wf = true) :
    ∃ t, t.run ≠ .faulted ∧
      exec i s = complete s (faultOr ((argsResolutionFault s i.opcode).or (rowFault s i.opcode)) (.ok t)) := by
  by_cases hop : i.opcode = .assert
  · cases i with
    | assert a b =>
      obtain ⟨ha, hb⟩ := Bool.and_eq_true_iff.1 hwf
      obtain ⟨ra, rfl⟩ := isRegister_iff.1 ha
      obtain ⟨o, rfl⟩ := isLegal_iff.1 hb
      refine ⟨s.advance .assert, by simp [hr], ?_⟩
      rw [resolvesSource_assert.exec_operands, resolve_bind_eq_faultOr, firstFault_resolveAccesses,
        argsResolutionFault_two hi rfl, Instr.opcode, rowFault_assert hi, ← faultOr_faultOr]
      split <;> rfl
    | none | halt | jmp | mov | cmp | push | pop | add | sub | call => cases hop
  · obtain ⟨r, hexec, hend⟩ := exec_eq_faultOr hr hwf
    rw [firstFault_operandAccesses hi hwf hop] at hexec
    obtain ⟨t, rfl, ht⟩ | ⟨ra, o, rfl, -, -⟩ := hend
    · exact ⟨t, ht, hexec⟩
    · exact absurd rfl hop

/-! ## The whole step -/

/-- While RUNNING, a step takes the fault that its raw words give, and completes where they give none (R134). -/
theorem step_eq_stepFault {s : State} (hr : s.run = .running) (hcap : s.cfg.codeWords ≤ 2 ^ 31) :
    ∃ t, t.run ≠ .faulted ∧ step s = complete s (faultOr (stepFault s) (.ok t)) := by
  have hs : s.run ≠ .faulted := by simp [hr]
  by_cases har : (s.reg .ar).toNat < s.cfg.codeWords
  · cases hop : Opcode.ofWord (s.wordAtOffset 0) with
    | none =>
      have hw := (Opcode.ofWord_eq_none_iff _).2 hop
      have hread : memRead .code (s.reg .ar) s = .ok (s.wordAtOffset 0) := memRead_of_lt har
      exact ⟨s, hs, by rw [stepFault_of_illegalOpcode har hw]; exact (opcodeWordSelectsRow s _ hread).1 hr hw⟩
    | some op =>
      obtain ⟨i, hi, rfl⟩ := exists_standsAtAr (Opcode.ofWord_eq_some_iff.1 hop)
      rw [stepFault_of_opcode har hi.opcode]
      have hfetch := fetch_eq_faultOr hi har hcap
      obtain ⟨hnone, hwf⟩ | ⟨f, hf, hexec⟩ := hi.staticChecksDecide
      · obtain ⟨t, ht, hexec⟩ := exec_eq_checks hi hr hwf
        rw [hnone, Option.none_or]
        exact ⟨t, ht, step_of_fetch_faultOr hr hfetch hexec⟩
      · rw [hf, Option.some_or]
        exact ⟨s, hs, step_of_fetch_faultOr hr hfetch hexec⟩
  · have har := Nat.not_lt.1 har
    exact ⟨s, hs, by rw [stepFault_of_ar_ge har]; exact fetchOutsideCodeFaults.1 s hr har⟩

/-! ## The obligations -/

/-- Settles O28: the checks on the raw words are those of the fetch, of the slots, of the operand accesses and of ASSERT, in the
order in which the step makes them. -/
theorem faultPriority : Obligations.FaultPriority := by
  rintro s hr ⟨-, -, -, hcap⟩
  obtain ⟨t, ht, hstep⟩ := step_eq_stepFault hr hcap
  rw [hstep]
  refine ⟨fun f hf => ?_, fun hnone => ?_⟩
  · rw [hf, faultOr_some, complete_error]
  · rw [hnone]
    exact ⟨t, rfl, ht⟩

/-- Settles O27: FAULTED is entered by taking a fault in the state the step began in and in no other way (O5). -/
theorem faultsArePrecise : Obligations.FaultsArePrecise := by
  intro s t hr h ht
  obtain ⟨hends, -⟩ := runStateTransitions s
  obtain ⟨-, hfaulted⟩ := (hends t h).2 hr
  obtain ⟨f, rfl⟩ := hfaulted.1 ht
  obtain ⟨hlo, hhi, hat⟩ := record_cause (s.reg .ar) f
  exact ⟨s.takeFault_reg f, fun _ => rfl, fun seg a => memRead_takeFault seg a s f, rfl, rfl, hat, hlo, hhi⟩

/-- Settles O26, by reading the record of each fault. -/
theorem faultRecordWords : Obligations.FaultRecordWords :=
  fun _ => ⟨fun _ => rfl, fun _ => rfl, fun _ => rfl, fun _ => rfl, fun _ _ => rfl, fun _ _ => rfl, fun _ => rfl,
    fun _ _ _ _ => rfl⟩

end Sys2Proof.Machine

/-! Reset and hazards (70_reset_and_hazards.md): what the symbol operands of an accepted line name (R154), the load contract, and
the first step after reset. -/

namespace Sys2Proof.Machine

/-! ## What the operands of an accepted line name (R65, R154) -/

/-- What a classified argument names in the table (R154): an entry, an entry of a label, the location of a scalar. -/
def Argument.NamesSymbol (tab : SymbolTable) : Argument → Prop
  | .register _ => True
  | .integer _ => True
  | .value i => i < tab.length
  | .symbol i => ∃ n, tab[i]? = some n ∧ n.entry.kind = .label
  | .address d => ∃ n ∈ tab, n.entry.kind ≠ .label ∧ n.entry.location = d

/-- Every index and every location that classification gives comes from a lookup of the table (R65). -/
theorem classify_namesSymbol {tab : SymbolTable} {t : Token} {a : Argument} (h : classify tab t = .ok a) :
    a.NamesSymbol tab := by
  unfold classify at h
  split at h
  · cases h; trivial
  · split at h
    · next i e hv =>
      obtain ⟨name, -, hname⟩ := Option.bind_eq_some_iff.1 hv
      obtain ⟨n, hn, -⟩ := lookupName_ok hname
      cases h
      exact (List.getElem?_eq_some_iff.1 hn).1
    · split at h
      · next i e hs =>
        obtain ⟨n, hn, rfl⟩ := lookupName_ok hs
        split at h
        · next hk => cases h; exact ⟨n, hn, hk⟩
        · next hk => cases h; exact ⟨n, List.mem_of_getElem? hn, hk, rfl⟩
      · split at h
        · cases h; trivial
        · cases h

/-- Every classified argument of a line is one of its tokens classified (R65). -/
theorem exists_classify_of_mem {tab : SymbolTable} {ts : List Token} {as : List Argument} (h : classifyAll tab ts = .ok as)
    {a : Argument} (ha : a ∈ as) : ∃ t, classify tab t = .ok a := by
  induction ts generalizing as with
  | nil => cases h; cases ha
  | cons t ts ih =>
    obtain ⟨b, hb, h⟩ := bind_eq_ok h
    obtain ⟨bs, hbs, h⟩ := bind_eq_ok h
    cases h
    obtain rfl | ha := List.mem_cons.1 ha
    · exact ⟨t, hb⟩
    · exact ih hbs ha

/-- Every operand of a line is an emitted argument of it (R69). -/
theorem exists_operand_of_mem {as : List Argument} {os : List Operand} (h : operandsOf as = .ok os) {o : Operand}
    (ho : o ∈ os) : ∃ a ∈ as, a.operand = .ok o := by
  obtain ⟨k, hk, rfl⟩ := List.getElem_of_mem ho
  have hall := List.forall₂_iff_get.1 (operandsOf_ok h)
  exact ⟨_, List.get_mem as ⟨k, hall.1 ▸ hk⟩, hall.2 k _ hk⟩

/-- What an accepted line decodes to has only emitted arguments as its operands, each a classified token. -/
theorem exists_argument_of_encodeLine {tab : SymbolTable} {line : List Token} {ws : List Word} {i : Instr} {o : Operand}
    (h : encodeLine tab line = .ok ws) (hdec : decode ws = .ok i) (ho : .operand o ∈ i.args) :
    ∃ a : Argument, a.NamesSymbol tab ∧ a.operand = .ok o := by
  cases line with
  | nil => cases h
  | cons m args =>
    obtain ⟨op, as, os, -, hl, has, -, hos, rfl⟩ := encodeLine_ok h
    have hlen : os.length = op.nargs := by rw [operandsOf_length hos, classifyAll_length has, hl]
    obtain ⟨j, rfl, hargs⟩ := exists_instr (op := op) (as := os.map .operand) (by rw [List.length_map, hlen])
    have hj : decode (emit j.opcode os) = .ok j := by
      rw [emit_eq_encode j hargs]
      exact decode_encode (hargs ▸ isLegal_of_mem_map_operand)
    obtain rfl : j = i := Except.ok.inj (hj.symm.trans hdec)
    have hmem : o ∈ os := by simpa [hargs] using ho
    obtain ⟨a, ha, hao⟩ := exists_operand_of_mem hos hmem
    obtain ⟨t, ht⟩ := exists_classify_of_mem has ha
    exact ⟨a, classify_namesSymbol ht, hao⟩

/-! ## The obligations -/

/-- Settles O47: a load is a reset over the image, and reset keeps the image, empties the Stack and gives each register its
value. -/
theorem loadContract : Obligations.LoadContract := by
  intro im s
  obtain ⟨hreg, -, hrun, -, hstack, -⟩ :=
    resetValues { s with code := im.code, data := im.data, symtab := im.symtab, stack := [] }
  exact ⟨fun a ha => memRead_of_lt ha, fun a ha => memRead_of_lt ha, hstack, rfl, hreg, hrun, rfl⟩

/-- Settles O45: after reset AR is 0 and Code is as it was, so the words at address 0 are those the step fetches (O1). -/
theorem firstStepFetchesAtZero : Obligations.FirstStepFetchesAtZero := by
  intro s ws i hcode hdec
  refine stepRunsDecodedInstruction (hostReset s) ws i rfl (fun j w hw => ?_) hdec
  have har : (hostReset s).reg .ar + BitVec.ofNat 32 j = BitVec.ofNat 32 j := BitVec.zero_add _
  rw [har]
  exact hcode j w hw

/-- Settles O53: each operand is an argument that a lookup gave, and an index below NSYM is emitted as it is. -/
theorem encodedOperandsNameSymbols : Obligations.EncodedOperandsNameSymbols := by
  intro tab line ws i o htab h hdec ho
  obtain ⟨a, hnames, hao⟩ := exists_argument_of_encodeLine h hdec ho
  cases a with
  | register r => cases hao; trivial
  | integer n => obtain ⟨w, -, hw⟩ := bind_eq_ok hao; cases hw; trivial
  | address d => cases hao; exact hnames
  | value i =>
    cases hao
    show (BitVec.ofNat 32 i).toNat < tab.length
    rwa [BitVec.toNat_ofNat, Nat.mod_eq_of_lt (lt_trans hnames htab)]
  | symbol i =>
    cases hao
    obtain ⟨n, hn, hk⟩ := hnames
    have hlt : i < tab.length := (List.getElem?_eq_some_iff.1 hn).1
    refine ⟨n, ?_, hk⟩
    rwa [BitVec.toNat_ofNat, Nat.mod_eq_of_lt (hlt.trans htab)]

end Sys2Proof.Machine
